-- ==== Sys2Proof/Word.lean ====
section
/-! DEFINITION. The words of the engine: registers, addresses and array elements (00_scope.md R4). -/

namespace Sys2Proof

/-- A register, a command word, an address or a scalar operand: 32 bits (R4). -/
abbrev Word := BitVec 32

/-- A 16-bit array element (R4). -/
abbrev Half := BitVec 16

/-- One memory location (20_memory.md R40). -/
abbrev Byte := BitVec 8

/-- The pattern of `INT32_MIN` (00_scope.md section 5). -/
abbrev int32Min : Word := 0x80000000#32

end Sys2Proof
end

