-- ==== Sys2Proof/Config.lean ====
section
/-! DEFINITION. The parameters of an instance (00_scope.md R5 to R7) as plain data, and the free values (`ANY_32` of
00_scope.md section 5), which are constants without a body. -/

namespace Sys2Proof

/-- `GCD_MIN_POLICY` (R7): what GCD does with an operand equal to `INT32_MIN` (41_gcd.md R113). -/
inductive GcdMinPolicy where
  | refuse
  | unsignedMagnitude
  deriving DecidableEq, Repr

/-- `IDX_BYTES` (R6): the width of an element of FEQ16's index array (45_vector.md R164). -/
inductive IdxBytes where
  | two
  | four
  deriving DecidableEq, Repr

/-- One rule of the platform's admission predicate: the accesses that lie wholly inside `[base, base + size)` and are of
a permitted kind and width. A list of regions can say any predicate on (address, width, kind), since a region may be one
access wide (20_memory.md R41; log entry 1). -/
structure Region where
  base : Nat
  size : Nat
  reads : Bool
  writes : Bool
  width1 : Bool
  width2 : Bool
  width4 : Bool
  deriving DecidableEq, Repr

/-- The parameters of one instance: the build-time options of R5, the platform parameters of R6 (`MemAdmit` is `ram`
together with the three exclusions R41 states), and the policy of R7. No step changes them. -/
structure Config where
  hasNorm : Bool
  hasVec : Bool
  npcBase : Word
  ram : List Region
  alignRequired : Bool
  bigEndian : Bool
  idxBytes : IdxBytes
  gcdMinPolicy : GcdMinPolicy
  deriving DecidableEq, Repr

/-- FREE VALUE. The `n`-th draw of an `ANY_32` (00_scope.md section 5: "a free input under no law"). It has no body:
nothing can be proved of its value (log entry 4). -/
opaque Config.any32 : Nat → Word

/-- FREE VALUE. Whether a GCD with an `INT32_MIN` operand completes at the `n`-th draw, under `GCD_MIN_POLICY = refuse`,
where R113 promises neither a value nor completion (log entry 5). -/
opaque Config.gcdMinCompletes : Nat → Bool

end Sys2Proof
end

