-- ==== Sys2Proof/Syntax.lean ====
section
/-! DEFINITION. The commands (30_encoding.md R70 to R72), the fields of a command word, and the forms of a bus access. -/

namespace Sys2Proof

/-- The seven commands, one constructor per row of spec/opcode_table.json (R72). A command has no operand fields: its
operands stand in fixed registers (R71, R73). -/
inductive Instr where
  | gcd
  | crc32
  | fls
  | norm
  | feq16
  | fmin16
  | fmaxa32
  deriving DecidableEq, Repr

/-- The fields of a command word, format C (R71). -/
structure CommandWord where
  /-- Bits 31:4, reserved. -/
  rsv : BitVec 28
  /-- Bits 3:0, the opcode. -/
  opc : BitVec 4
  deriving DecidableEq, Repr

/-- Why a command word is no command (R75). -/
inductive DecodeError where
  /-- `RSV ≠ 0`. -/
  | reservedBits
  /-- `OPC ∈ {0x0, 0x8 .. 0xF}`. -/
  | reservedOpcode
  deriving DecidableEq, Repr

/-- The width of a bus access: `n ∈ {1, 2, 4}` bytes (20_memory.md R41). -/
inductive AccessSize where
  | one
  | two
  | four
  deriving DecidableEq, Repr

/-- The kind of an access `MemAdmit` is asked about (20_memory.md R41). -/
inductive AccessKind where
  | read
  | write
  deriving DecidableEq, Repr

/-- What an offset of the register window names (10_state.md R22). -/
inductive Reg where
  | cmd
  | status
  | res
  | cap
  | arg (i : Fin 5)
  | reserved
  deriving DecidableEq, Repr

end Sys2Proof
end

