-- ==== Sys2Proof/WellFormed.lean ====
section
/-! DEFINITION. Well-formedness: of a command word (30_encoding.md R71, R75), of a register access (10_state.md R30) and
of an instance's parameters (00_scope.md R6). An `Instr` itself has no fields, so there is nothing to check in one. -/

namespace Sys2Proof

/-- A command word is a command exactly when RSV is zero and OPC is one of 1 to 7 (R72, R75). -/
def CommandWord.wf (c : CommandWord) : Bool :=
  decide (c.rsv = 0) && decide (1 ≤ c.opc) && decide (c.opc ≤ 7)

/-- A register access has a defined effect exactly when it is a naturally aligned 32-bit access (10_state.md R30). -/
def registerAccessWf (off : BitVec 6) (n : AccessSize) : Bool :=
  decide (n = .four) && decide (off &&& 3 = 0)

/-- `NPC_BASE` is a multiple of 64 (00_scope.md R6). -/
def Config.wf (c : Config) : Bool :=
  decide (c.npcBase &&& 63 = 0)

end Sys2Proof
end

