-- ==== Sys2Proof/Decode.lean ====
section
/-! DEFINITION. The decoder, total on every 32-bit word, and after it the encoder (30_encoding.md R70 to R72, R75). -/

namespace Sys2Proof

/-- The fields of a word, read as format C (R71): RSV is bits 31:4, OPC is bits 3:0. -/
def fieldsOf (w : Word) : CommandWord :=
  { rsv := w.extractLsb' 4 28, opc := w.extractLsb' 0 4 }

/-- The opcode map (R72). -/
def instrOfOpcode (opc : BitVec 4) : Option Instr :=
  match opc with
  | 0x1#4 => some .gcd
  | 0x2#4 => some .crc32
  | 0x3#4 => some .fls
  | 0x4#4 => some .norm
  | 0x5#4 => some .feq16
  | 0x6#4 => some .fmin16
  | 0x7#4 => some .fmaxa32
  | _ => none

/-- The decoder of R72: "if `w[31:4] ≠ 0` then illegal; else look `w[3:0]` up in this table". -/
def decode (w : Word) : Except DecodeError Instr :=
  if (fieldsOf w).rsv ≠ 0 then .error .reservedBits
  else
    match instrOfOpcode (fieldsOf w).opc with
    | some i => .ok i
    | none => .error .reservedOpcode

/-- The opcode of a command (R72). -/
def opcodeOf (i : Instr) : BitVec 4 :=
  match i with
  | .gcd => 0x1#4
  | .crc32 => 0x2#4
  | .fls => 0x3#4
  | .norm => 0x4#4
  | .feq16 => 0x5#4
  | .fmin16 => 0x6#4
  | .fmaxa32 => 0x7#4

/-- The word with the given fields, format C (R71): RSV in the high bits. -/
def wordOf (c : CommandWord) : Word := c.rsv ++ c.opc

/-- The command word of a command (R72): RSV zero, OPC its opcode. -/
def encode (i : Instr) : Word := wordOf { rsv := 0, opc := opcodeOf i }

/-- The instruction this decoder reads from a command of `nbits` bits whose bits are `w`, numbered as
spec/opcode_table.json numbers them. A command is one 32-bit word (R70), so its bits are the word's; bits above `nbits`
are zero, and a number that does not fit in `nbits` bits, or in the word, is no command. -/
def decodeTableWord (nbits w : Nat) : Option Instr :=
  if w < 2 ^ nbits ∧ w < 2 ^ 32 then (decode (BitVec.ofNat 32 w)).toOption else none

end Sys2Proof
end

