-- ==== Sys2Proof/Machine/Platform.lean ====
section
/-! DEFINITION. The instance that `State.reset` stands for: the defaults of 92_eei_decisions.md's parameter table, with
the RAM that 95_test_vectors.md names. -/

namespace Sys2Proof.Machine

/-- DESIGN CHOICE (log entry 2). `HAS_NORM`, `HAS_VEC`, `ALIGN_REQUIRED`, `BIG_ENDIAN`, `IDX_BYTES` and `GCD_MIN_POLICY`
have the spec's defaults; `NPC_BASE` and `MemAdmit` are OPEN there: the RAM is `[0x1000, 0x4000)`, as 95_test_vectors.md
has it, and the window lies at 0x40000000, outside that RAM. -/
def resetConfig : Config where
  hasNorm := true
  hasVec := true
  npcBase := 0x40000000#32
  ram := [{ base := 0x1000, size := 0x3000, reads := true, writes := true, width1 := true, width2 := true, width4 := true }]
  alignRequired := true
  bigEndian := false
  idxBytes := .two
  gcdMinPolicy := .refuse

end Sys2Proof.Machine
end

