-- ==== Sys2Proof/Machine/State.lean ====
section
/-! DEFINITION. The state of the engine and of what it is attached to, as plain data (10_state.md R10 to R28), the
faults and refusals of the model, and the state after reset. -/

namespace Sys2Proof.Machine

/-- The platform's memory: the listed bytes, addresses strictly rising, none equal to what an unlisted address reads as
(20_memory.md R40; `Memory.wf`, log entry 8). -/
abbrev Memory := List Host.Cell

/-- The operand registers ARG0 to ARG4, `x[0]` to `x[4]` (10_state.md R11). -/
structure Args where
  arg0 : Word
  arg1 : Word
  arg2 : Word
  arg3 : Word
  arg4 : Word
  deriving DecidableEq, Repr

/-- The fields of STATUS (10_state.md R15 to R19). The reserved bits have no storage (R20). -/
structure Status where
  busy : Bool
  done : Bool
  err : BitVec 3
  ovr : Bool
  deriving DecidableEq, Repr

/-- Where FEQ16 stands in its pseudocode between two accesses (45_vector.md R161; DEDUCED, log entry 10). -/
inductive FeqPhase where
  /-- At the head of the loop: the next step reads element `i`, or completes. -/
  | scan
  /-- Element `i` is equal to `n`: the next step writes its index. -/
  | hit
  /-- The early stop was reached: the next step completes (R162). -/
  | stop
  deriving DecidableEq, Repr

/-- The working registers of the unit in use, with the widths of 10_state.md R25. -/
inductive Work where
  /-- No operation in flight: "All of it is dead when BUSY = 0" (R25; log entry 9). -/
  | dead
  | gcd (a b : Word) (k : BitVec 5)
  | crc32 (crc cur i : Word) (bit : BitVec 3)
  | fls (value : Word) (position : BitVec 6)
  | norm (value : Word) (c : BitVec 5)
  | feq16 (i count : Word) (phase : FeqPhase)
  | fmin16 (i : Word) (m : Half)
  | fmaxa32 (i : Word) (amax : BitVec 64)
  /-- The last access was refused: the completion step with BUS_FAULT is next (40_command_lifecycle.md R94, R95,
  60_exceptions.md R194; log entry 10). -/
  | refused
  deriving DecidableEq, Repr

/-- One turn of an agent (40_command_lifecycle.md R90; log entry 7). Offsets are relative to `NPC_BASE`, as R79 gives the
bus transactions. -/
inductive Turn where
  /-- The engine takes one step of the operation in flight (R94). -/
  | engine
  /-- The host writes the register window: `n` bytes at an offset. -/
  | write (off : BitVec 6) (n : AccessSize) (v : Word)
  /-- The host reads the register window. -/
  | read (off : BitVec 6) (n : AccessSize)
  /-- The host polls STATUS until DONE = 1, and no other agent moves meanwhile (30_encoding.md R80 `wait`). -/
  | wait
  /-- The host or another master stores bytes at `a`, `a + 1`, ... as one access (20_memory.md R47, R55). -/
  | store (a : Word) (bytes : List Byte)
  /-- The host or another master loads one byte. -/
  | load (a : Word)
  /-- The platform asserts reset (70_reset_and_hazards.md R220, R221). -/
  | assertReset
  /-- The platform releases reset (R220). -/
  | releaseReset
  /-- The host begins `falign byte_align, frame_align_req, frame_size` (30_encoding.md R80, 41_gcd.md R117). -/
  | falign (byteAlign frameAlignReq frameSize : Word)
  /-- The host holds `g1`, divides by it and makes the second `call GCD` (41_gcd.md R117; log entry 14). -/
  | falignDivide (byteAlign frameAlignReq : Word)
  /-- The host holds `g2`, multiplies and divides by it (41_gcd.md R117; log entry 14). -/
  | falignFinish (frameAlignReq frameNum : Word)
  deriving DecidableEq, Repr

/-- The whole state. -/
structure State where
  /-- The instance's parameters; no step changes them (00_scope.md R5; log entry 1). -/
  cfg : Config
  /-- `x[0]` to `x[4]` (10_state.md R11). -/
  args : Args
  /-- RES (R13). -/
  res : Word
  /-- RES is `ANY_32`: a host read of RES is a fresh free value (R13, 40_command_lifecycle.md R99). -/
  resOpen : Bool
  /-- STATUS (R15). -/
  status : Status
  /-- OPL, the opcode of the operation in flight (R25). -/
  opl : BitVec 4
  /-- The working registers of the unit in use (R25). -/
  work : Work
  /-- The platform's memory (20_memory.md R40). -/
  mem : Memory
  /-- Whether the reset input is asserted (70_reset_and_hazards.md R220). -/
  resetAsserted : Bool
  /-- The model's own: the turns the agents take next, in order (log entry 7). -/
  schedule : List Turn
  /-- The model's own: the data the host holds, newest first: what its reads have returned, and the results of its
  `falign` sequences (log entry 20). -/
  seen : List Word
  /-- The model's own: how many free values have been drawn (log entry 4). -/
  draws : Nat
  deriving DecidableEq, Repr

/-- The reasons for which a command is rejected or an operation ends without a result (60_exceptions.md R191). They are
not faults of the model: the machine goes on with a code in STATUS.ERR. -/
inductive CommandFault where
  | illegalCmd
  | unitAbsent
  | busFault
  deriving DecidableEq, Repr

/-- The faults of the model. The engine has none that stops it (60_exceptions.md R190, R197). -/
inductive Fault where
  /-- Raised by the two turns of the host sequence `falign` that divide, when the divisor is 0 (60_exceptions.md R202,
  41_gcd.md R118). Safe: the spec names this fault. -/
  | divisionByZero
  deriving DecidableEq, Repr

/-- The refusals of the model. -/
inductive Refusal where
  /-- Raised by `exec`'s arm of an instruction that has no meaning yet. No arm does. Safe. -/
  | notModelled (mnemonic : String)
  /-- Raised by a host turn that accesses the register window otherwise than by an aligned 32-bit access (10_state.md
  R30, 93_implementation_defined.md U9: "a model refuses it"). Safe. -/
  | registerAccess
  /-- Raised by the last turn of `falign` when `frame_align_req × frame_num ≥ 2^32` (41_gcd.md R118 b, 93_implementation_defined.md U5: "a
  model refuses the case"). Safe. -/
  | falignOverflow
  deriving DecidableEq, Repr

/-- The engine right after reset (10_state.md R28, 70_reset_and_hazards.md R220): STATUS is 0, nothing is in flight, RES
is `ANY_32`. `x[]` and the stored word of RES have no reset value in the spec: DESIGN CHOICE 0 (log entries 3, 4). -/
def State.reset : State where
  cfg := resetConfig
  args := { arg0 := 0, arg1 := 0, arg2 := 0, arg3 := 0, arg4 := 0 }
  res := 0
  resOpen := true
  status := { busy := false, done := false, err := 0, ovr := false }
  opl := 0
  work := .dead
  mem := []
  resetAsserted := false
  schedule := []
  seen := []
  draws := 0

end Sys2Proof.Machine
end

