-- ==== Sys2Proof/Machine/Flags.lean ====
section
/-! DEFINITION. Every computation of a flag: the fields of STATUS at each event of a command, the STATUS and CAP words.
The engine has no arithmetic flags (10_state.md R24). -/

namespace Sys2Proof.Machine

/-- The code a command fault leaves in STATUS.ERR (60_exceptions.md R191). -/
def faultCode (f : CommandFault) : BitVec 3 :=
  match f with
  | .illegalCmd => 1
  | .unitAbsent => 2
  | .busFault => 3

/-- Acceptance: BUSY 1, DONE 0, ERR 0; OVR is not touched (40_command_lifecycle.md R93). -/
def Status.accepted (t : Status) : Status := { t with busy := true, done := false, err := 0 }

/-- The completion of an operation with an outcome code: BUSY 0, DONE 1 (R95). -/
def Status.finished (code : BitVec 3) (t : Status) : Status := { t with busy := false, done := true, err := code }

/-- The rejection of a command with an outcome code: DONE 1; BUSY stays as it is, which is 0 (R96). -/
def Status.rejected (code : BitVec 3) (t : Status) : Status := { t with done := true, err := code }

/-- A late register write: OVR 1 (10_state.md R19). -/
def Status.overrun (t : Status) : Status := { t with ovr := true }

/-- A host write of `w` to STATUS: `OVR <- OVR & ~w[8]`, all other bits ignored (40_command_lifecycle.md R97). -/
def Status.written (w : Word) (t : Status) : Status := { t with ovr := t.ovr && !w.getLsbD 8 }

/-- The STATUS word (10_state.md R15): bit 0 BUSY, bit 1 DONE, bits 6:4 ERR, bit 8 OVR, the others 0 (R20). -/
def statusWord (t : Status) : Word :=
  0#23 ++ BitVec.ofBool t.ovr ++ 0#1 ++ t.err ++ 0#2 ++ BitVec.ofBool t.done ++ BitVec.ofBool t.busy

/-- Whether the unit of a command is in this instance: `Present` of 40_command_lifecycle.md R92. -/
def present (c : Config) (i : Instr) : Bool :=
  match i with
  | .gcd => true
  | .crc32 => true
  | .fls => true
  | .norm => c.hasNorm
  | .feq16 => c.hasVec
  | .fmin16 => c.hasVec
  | .fmaxa32 => c.hasVec

/-- Whether `IDX_BYTES = 4`. -/
def indexIsFour (c : Config) : Bool :=
  match c.idxBytes with
  | .two => false
  | .four => true

/-- The CAP word (10_state.md R21): bit `n` in 1 to 7 is `Present` of the command with opcode `n`, bit 16 is
`IDX_BYTES = 4`, bit 17 is `BIG_ENDIAN`, the others are 0. -/
def capWord (c : Config) : Word :=
  0#14 ++ BitVec.ofBool c.bigEndian ++ BitVec.ofBool (indexIsFour c) ++ 0#8
    ++ BitVec.ofBool (present c .fmaxa32) ++ BitVec.ofBool (present c .fmin16) ++ BitVec.ofBool (present c .feq16)
    ++ BitVec.ofBool (present c .norm) ++ BitVec.ofBool (present c .fls) ++ BitVec.ofBool (present c .crc32)
    ++ BitVec.ofBool (present c .gcd) ++ 0#1

end Sys2Proof.Machine
end

