-- ==== Sys2Proof/Machine/Ops.lean ====
section
/-! DEFINITION. The named operations over memory and registers, the lifecycle of a command (acceptance, completion,
rejection, overrun) and reset. Raising a fault is the one operation `State.raise`; there is no return from one
(60_exceptions.md R198): the next accepted command overwrites ERR, and a write to STATUS clears OVR. -/

namespace Sys2Proof.Machine

/-! ### Memory as data (20_memory.md R40) -/

/-- What a byte that nothing has written reads as. DESIGN CHOICE (log entry 8). -/
def Memory.unlisted : Byte := 0

/-- The byte at an address. -/
def Memory.byteAt (m : Memory) (a : Nat) : Byte :=
  match m with
  | [] => Memory.unlisted
  | (b, v) :: rest => if a = b then v else Memory.byteAt rest a

/-- One more cell in front, unless its value is what an unlisted address reads as. -/
def Memory.cons (a : Nat) (v : Byte) (m : Memory) : Memory :=
  if v = Memory.unlisted then m else (a, v) :: m

/-- Writes one byte and keeps the canonical form. -/
def Memory.setByte (m : Memory) (a : Nat) (v : Byte) : Memory :=
  match m with
  | [] => Memory.cons a v []
  | (b, w) :: rest =>
    if a < b then Memory.cons a v ((b, w) :: rest)
    else if a = b then Memory.cons a v rest
    else (b, w) :: Memory.setByte rest a v

/-- The canonical form from an address on: addresses strictly rising, inside the space of `2^32` bytes, and no cell equal
to what an unlisted address reads as. -/
def Memory.wfFrom (lo : Nat) (m : Memory) : Bool :=
  match m with
  | [] => true
  | (a, v) :: rest => decide (lo ≤ a) && decide (a < 2 ^ 32) && decide (v ≠ Memory.unlisted) && Memory.wfFrom (a + 1) rest

/-- The canonical form of a memory. -/
def Memory.wf (m : Memory) : Bool := Memory.wfFrom 0 m

/-- `n` bytes at ascending addresses from `a`. Addresses are 32 bits (R40). -/
def Memory.load (m : Memory) (a : Word) (n : Nat) : List Byte :=
  match n with
  | 0 => []
  | n + 1 => Memory.byteAt m a.toNat :: Memory.load m (a + 1) n

/-- Stores bytes at ascending addresses from `a`. -/
def Memory.store (m : Memory) (a : Word) (bytes : List Byte) : Memory :=
  match bytes with
  | [] => m
  | b :: rest => Memory.store (Memory.setByte m a.toNat b) (a + 1) rest

/-! ### The memory primitives (20_memory.md R41, R42) -/

/-- The number of bytes of an access. -/
def AccessSize.bytes (n : AccessSize) : Nat :=
  match n with
  | .one => 1
  | .two => 2
  | .four => 4

/-- The width of an index element, `IDX_BYTES` (45_vector.md R164). -/
def idxSize (c : Config) : AccessSize :=
  match c.idxBytes with
  | .two => .two
  | .four => .four

/-- Whether a region permits an access that lies wholly inside it. -/
def Region.covers (r : Region) (a : Word) (n : AccessSize) (k : AccessKind) : Bool :=
  decide (r.base ≤ a.toNat) && decide (a.toNat + AccessSize.bytes n ≤ r.base + r.size)
    && (match k with
        | .read => r.reads
        | .write => r.writes)
    && (match n with
        | .one => r.width1
        | .two => r.width2
        | .four => r.width4)

/-- Whether `[a, a + n)` meets the engine's own window `[NPC_BASE, NPC_BASE + 64)` (R41, R59). -/
def meetsWindow (c : Config) (a : Word) (n : Nat) : Bool :=
  decide (a.toNat < c.npcBase.toNat + 64) && decide (c.npcBase.toNat < a.toNat + n)

/-- `MemAdmit` (R41): false over the top of the space, for a misaligned access under `ALIGN_REQUIRED` (R43), and into the
engine's own window (R59); elsewhere what the platform says. -/
def admits (c : Config) (a : Word) (n : AccessSize) (k : AccessKind) : Bool :=
  decide (a.toNat + AccessSize.bytes n ≤ 2 ^ 32)
    && (!c.alignRequired || decide (a.toNat % AccessSize.bytes n = 0))
    && !meetsWindow c a (AccessSize.bytes n)
    && c.ram.any (fun r => Region.covers r a n k)

/-- The bytes of a value in ascending address order, from or to the order with the least significant byte first (R42). -/
def inByteOrder (c : Config) (bytes : List Byte) : List Byte :=
  if c.bigEndian then bytes.reverse else bytes

/-- The value of bytes given with the least significant first, zero-extended to a word. -/
def assemble (bytes : List Byte) : Word :=
  bytes.foldr (fun b acc => (acc <<< 8) ||| b.setWidth 32) 0

/-- The low `n` bytes of a value, least significant first. -/
def splitBytes (n : Nat) (v : Word) : List Byte :=
  match n with
  | 0 => []
  | n + 1 => v.setWidth 8 :: splitBytes n (v >>> 8)

/-- `MemRead(a, n)` (R41), the value zero-extended to a word; `none` where it raises BusFault. -/
def memRead (s : State) (a : Word) (n : AccessSize) : Option Word :=
  if admits s.cfg a n .read then some (assemble (inByteOrder s.cfg (Memory.load s.mem a (AccessSize.bytes n)))) else none

/-- The memory after `MemWrite(a, n, v)` (R41); `none` where it raises BusFault and stores nothing. -/
def memWrite (s : State) (a : Word) (n : AccessSize) (v : Word) : Option Memory :=
  if admits s.cfg a n .write then
    some (Memory.store s.mem a (inByteOrder s.cfg (splitBytes (AccessSize.bytes n) v)))
  else none

/-! ### Registers -/

/-- The operand register `x[i]` (10_state.md R11). -/
def Args.get (x : Args) (i : Fin 5) : Word :=
  match i with
  | 0 => x.arg0
  | 1 => x.arg1
  | 2 => x.arg2
  | 3 => x.arg3
  | 4 => x.arg4

/-- `x[i] <- v`. -/
def Args.set (x : Args) (i : Fin 5) (v : Word) : Args :=
  match i with
  | 0 => { x with arg0 := v }
  | 1 => { x with arg1 := v }
  | 2 => { x with arg2 := v }
  | 3 => { x with arg3 := v }
  | 4 => { x with arg4 := v }

/-- `x[i]` of a state. -/
def State.x (s : State) (i : Fin 5) : Word := Args.get s.args i

/-- `RES <- ANY_32`: RES takes a free value, and each host read of it is a fresh one (10_state.md R13; log entry 4). -/
def State.anyRes (s : State) : State :=
  { s with res := Config.any32 s.draws, resOpen := true, draws := s.draws + 1 }

/-! ### The lifecycle of a command -/

/-- A register write that arrives while BUSY = 1 is dropped and sets OVR (40_command_lifecycle.md R91, R92 case 1,
60_exceptions.md R195). -/
def State.overrun (s : State) : State := { s with status := Status.overrun s.status }

/-- `accept(op)` (40_command_lifecycle.md R93), with the working registers as the algorithm initialises them
(10_state.md R25). -/
def State.accept (i : Instr) (start : Work) (s : State) : State :=
  State.anyRes { s with status := Status.accepted s.status, opl := opcodeOf i, work := start }

/-- The operation is over: OPL and the working registers are dead (10_state.md R25; log entry 9). -/
def State.retire (code : BitVec 3) (s : State) : State :=
  { s with status := Status.finished code s.status, opl := 0, work := .dead }

/-- The completion step of an operation that returns `r` (40_command_lifecycle.md R95). -/
def State.complete (r : Word) (s : State) : State :=
  { State.retire 0 s with res := r, resOpen := false }

/-- The completion step of an operation whose result the spec leaves undefined (45_vector.md R166, R169): it completes,
and RES is a free value. -/
def State.completeAny (s : State) : State := State.anyRes (State.retire 0 s)

/-- Raising a fault, the one operation for it. A rejection writes ERR and DONE and nothing else (40_command_lifecycle.md
R96, 60_exceptions.md R192, R193); BusFault is the completion step of R95 with ERR = 3 and RES = `ANY_32`
(60_exceptions.md R194). Nothing is saved and control goes nowhere (R197). -/
def State.raise (f : CommandFault) (s : State) : State :=
  match f with
  | .illegalCmd => { s with status := Status.rejected (faultCode .illegalCmd) s.status }
  | .unitAbsent => { s with status := Status.rejected (faultCode .unitAbsent) s.status }
  | .busFault => State.anyRes (State.retire (faultCode .busFault) s)

/-- The access was refused: it has no effect, and the completion step with BUS_FAULT is next (60_exceptions.md R194). -/
def State.refuseAccess (s : State) : State := { s with work := .refused }

/-- Whether no other agent takes a step before the operation in flight completes: nothing is scheduled, or the host only
waits for it. It is the premise of 20_memory.md R55, R56 under which 40_command_lifecycle.md R94 lets an operation be one
step (log entry 6). -/
def quiet (s : State) : Bool :=
  match s.schedule with
  | [] => true
  | .wait :: _ => true
  | _ => false

/-- Engine steps of one unit, at most `fuel`, until the operation is over (40_command_lifecycle.md R94). -/
def runTurns (turn : State → State) (fuel : Nat) (s : State) : State :=
  match fuel with
  | 0 => s
  | fuel + 1 => if s.status.busy then runTurns turn fuel (turn s) else s

/-- A write to CMD of the word of command `i`: the checks of 40_command_lifecycle.md R92 in their order. `start` is what
the algorithm initialises its working registers to, `turn` one engine step of the unit, `fuel` a bound on the number of
its steps. Where no other agent moves before completion, the operation runs to its end at once (R94); otherwise the
engine's turns in the schedule run it. -/
def issue (i : Instr) (start : Work) (fuel : Nat) (turn : State → State) (s : State) :
    Host.Outcome State Fault Refusal :=
  if s.status.busy then .next (State.overrun s)
  else if !present s.cfg i then .next (State.raise .unitAbsent s)
  else if quiet s then .next (runTurns turn fuel (State.accept i start s))
  else .next (State.accept i start s)

/-! ### The host -/

/-- The value a host read returns goes to the host. -/
def State.returnData (v : Word) (s : State) : State := { s with seen := v :: s.seen }

/-! ### Reset -/

/-- Reset of the engine (70_reset_and_hazards.md R220, R221): its registers as in `State.reset`, the operation in flight
abandoned, memory not touched, no completion step. -/
def State.clear (s : State) : State :=
  { s with args := State.reset.args, res := State.reset.res, resOpen := State.reset.resOpen,
           status := State.reset.status, opl := State.reset.opl, work := State.reset.work }

end Sys2Proof.Machine
end

