-- ==== Sys2Proof/Machine/Operands.lean ====
section
/-! DEFINITION. The operand forms: which register holds which operand and how it is narrowed (30_encoding.md R73, R74),
and the effective address of an array element (20_memory.md R45). -/

namespace Sys2Proof.Machine

/-- The address of element `i` of an array with base `base` and element size `size`: `trunc_32(base + size·i)` (R45). -/
def elemAddr (base : Word) (size : AccessSize) (i : Word) : Word :=
  base + BitVec.ofNat 32 (AccessSize.bytes size) * i

/-- The number of elements in range of a length operand read as `s32`: none when it is 0 or negative (R74). -/
def lengthOf (len : Word) : Nat := len.toInt.toNat

/-- GCD: `a = x[0]`. -/
def gcdA (s : State) : Word := State.x s 0
/-- GCD: `b = x[1]`. -/
def gcdB (s : State) : Word := State.x s 1

/-- CRC32: `base = x[0]`. -/
def crcBase (s : State) : Word := State.x s 0
/-- CRC32: `data = x[1]`, a byte address. -/
def crcData (s : State) : Word := State.x s 1
/-- CRC32: `length = u32(x[2])`. -/
def crcLength (s : State) : Word := State.x s 2

/-- FLS: `x = x[0]`, a pattern. -/
def flsX (s : State) : Word := State.x s 0

/-- NORM: `val = x[0]`. -/
def normVal (s : State) : Word := State.x s 0

/-- FEQ16: `out_idx = x[0]`, a byte address. -/
def feqOut (s : State) : Word := State.x s 0
/-- FEQ16: `vec = x[1]`, a byte address. -/
def feqVec (s : State) : Word := State.x s 1
/-- FEQ16: `n = x[2][15:0]`; bits 31:16 of `x[2]` are ignored (R74). -/
def feqN (s : State) : Half := (State.x s 2).setWidth 16
/-- FEQ16: `vec_length = s32(x[3])`. -/
def feqLength (s : State) : Word := State.x s 3
/-- FEQ16: `max_results = s32(x[4])`. -/
def feqMax (s : State) : Word := State.x s 4

/-- FMIN16 and FMAXA32: `vec = x[0]`, a byte address. -/
def scanVec (s : State) : Word := State.x s 0
/-- FMIN16 and FMAXA32: `vec_length = s32(x[1])`. -/
def scanLength (s : State) : Word := State.x s 1

end Sys2Proof.Machine
end

