-- ==== Sys2Proof/Machine/Crc32.lean ====
section
/-! DEFINITION. CRC32 (42_crc32.md R130 to R135): reflected, polynomial 0xEDB88320, computed bit by bit, chained through
`base`. -/

namespace Sys2Proof.Machine

/-- One of the eight steps of the inner loop of R131. -/
def crcBitStep (cur : Word) : Word :=
  if cur.getLsbD 0 then (cur >>> 1) ^^^ 0xEDB88320#32 else cur >>> 1

/-- `n` steps of the inner loop. -/
def crcBitSteps (n : Nat) (cur : Word) : Word :=
  match n with
  | 0 => cur
  | n + 1 => crcBitSteps n (crcBitStep cur)

/-- The running value after the inner loop for data byte `d` (R131). -/
def crcCur (crc : Word) (d : Byte) : Word :=
  crcBitSteps 8 ((crc ^^^ d.setWidth 32) &&& 0x000000FF#32)

/-- `crc` after one data byte (R131): "Fold back into crc by XOR with crc >> 8 after the bit loop, per byte". -/
def crcByte (crc : Word) (d : Byte) : Word := crcCur crc d ^^^ (crc >>> 8)

/-- One engine step of CRC32: the read of byte `i` and all that follows it up to the next read, or the completion step
with `~crc` (40_command_lifecycle.md R94, 20_memory.md R44). -/
def crc32Turn (s : State) : State :=
  match s.work with
  | .refused => State.raise .busFault s
  | .crc32 crc _ i bit =>
    if i < crcLength s then
      match memRead s (elemAddr (crcData s) .one i) .one with
      | none => State.refuseAccess s
      | some d => { s with work := .crc32 (crcByte crc (d.setWidth 8)) (crcCur crc (d.setWidth 8)) (i + 1) bit }
    else State.complete (~~~crc) s
  | _ => s

/-- CRC32 (R130): `base = x[0]`, `data = x[1]`, `length = u32(x[2])`; `crc` starts as `~base`. DESIGN CHOICE: `cur` and the
bit counter hold 0 until the first byte, which no program can observe (log entry 21). -/
def execCrc32 (s : State) : Host.Outcome State Fault Refusal :=
  issue .crc32 (.crc32 (~~~(crcBase s)) 0 0 0) ((crcLength s).toNat + 1) crc32Turn s

end Sys2Proof.Machine
end

