-- ==== Sys2Proof/Machine/Fls.lean ====
section
/-! DEFINITION. FLS (43_fls.md R140 to R142): the 1-based position of the most significant 1 bit. The unit's name
`bit_scan_lsb` is only a label (90_conflicts.md C1). -/

namespace Sys2Proof.Machine

/-- `p + 1` for the largest `p < position` with bit `p` of `x` set, 0 if there is none (R141). -/
def lastSetBelow (position : Nat) (x : Word) : Nat :=
  match position with
  | 0 => 0
  | p + 1 => if x.getLsbD p then p + 1 else lastSetBelow p x

/-- The function `fls` of R141. -/
def flsOf (x : Word) : Nat := lastSetBelow 32 x

/-- The realisation of R142: test and shift left in chunks of 16, 8, 4, 2 and 1 bits. -/
def flsHalving (x : Word) : Nat :=
  if x = 0 then 0
  else
    let s16 : Word × Nat := if x &&& 0xFFFF0000#32 = 0 then (x <<< 16, 16) else (x, 32)
    let s8 : Word × Nat := if s16.1 &&& 0xFF000000#32 = 0 then (s16.1 <<< 8, s16.2 - 8) else s16
    let s4 : Word × Nat := if s8.1 &&& 0xF0000000#32 = 0 then (s8.1 <<< 4, s8.2 - 4) else s8
    let s2 : Word × Nat := if s4.1 &&& 0xC0000000#32 = 0 then (s4.1 <<< 2, s4.2 - 2) else s4
    if s2.1 &&& 0x80000000#32 = 0 then s2.2 - 1 else s2.2

/-- One engine step of FLS: the completion step (40_command_lifecycle.md R94), from the value and the position counter
(10_state.md R25). -/
def flsTurn (s : State) : State :=
  match s.work with
  | .fls value position => State.complete (BitVec.ofNat 32 (lastSetBelow position.toNat value)) s
  | _ => s

/-- FLS (R140): the operand is `x[0]`, all 32 bits. -/
def execFls (s : State) : Host.Outcome State Fault Refusal :=
  issue .fls (.fls (flsX s) 32) 1 flsTurn s

end Sys2Proof.Machine
end

