-- ==== Sys2Proof/Machine/Gcd.lean ====
section
/-! DEFINITION. GCD (41_gcd.md R110 to R116): the binary algorithm of R112, by shifts, comparisons and subtraction only
(R114). -/

namespace Sys2Proof.Machine

/-- The absolute value of R112's first two lines; it wraps for `INT32_MIN`. -/
def absWord (v : Word) : Word := if v.msb then 0 - v else v

/-- "both even: take out the common factor 2": halves both while neither has bit 0 set, counting in `k`. -/
def takeCommonTwos (fuel : Nat) (a b : Word) (k : BitVec 5) : Word × Word × BitVec 5 :=
  match fuel with
  | 0 => (a, b, k)
  | fuel + 1 => if (a ||| b).getLsbD 0 then (a, b, k) else takeCommonTwos fuel (a >>> 1) (b >>> 1) (k + 1)

/-- Halves a value until bit 0 is set. -/
def makeOdd (fuel : Nat) (a : Word) : Word :=
  match fuel with
  | 0 => a
  | fuel + 1 => if a.getLsbD 0 then a else makeOdd fuel (a >>> 1)

/-- The `repeat ... until b = 0` of R112; comparisons are unsigned. -/
def subtractLoop (fuel : Nat) (a b : Word) : Word :=
  match fuel with
  | 0 => a
  | fuel + 1 =>
    let odd := makeOdd 32 b
    let low := if a > odd then odd else a
    let high := if a > odd then a else odd
    if high - low = 0 then low else subtractLoop fuel low (high - low)

/-- The algorithm of R112 after the absolute values, from the working registers `a`, `b`, `k` (10_state.md R25). The
bounds 32, 32 and 64 are not reached for magnitudes up to `2^31` (R116; log entry 11). -/
def gcdWords (a b : Word) (k : BitVec 5) : Word :=
  if a = 0 then b
  else if b = 0 then a
  else
    let t := takeCommonTwos 32 a b k
    subtractLoop 64 (makeOdd 32 t.1) t.2.1 <<< t.2.2.toNat

/-- The `INT32_MIN` edge under `GCD_MIN_POLICY = refuse` (R113): neither a value of RES nor completion may be relied on.
Whether the operation completes at this step is a free choice, and RES is then a free value (log entry 5). -/
def gcdMinEdge (s : State) : State :=
  if Config.gcdMinCompletes s.draws then State.completeAny { s with draws := s.draws + 1 }
  else { s with draws := s.draws + 1 }

/-- One engine step of GCD: it makes no memory access, so it has the completion step only (40_command_lifecycle.md
R94). A working register equal to `0x80000000` is the magnitude of an `INT32_MIN` operand. -/
def gcdTurn (s : State) : State :=
  match s.work with
  | .gcd a b k =>
    if s.cfg.gcdMinPolicy = .refuse ∧ (a = int32Min ∨ b = int32Min) then gcdMinEdge s
    else State.complete (gcdWords a b k) s
  | _ => s

/-- GCD (R110): the operands are `x[0]` and `x[1]`, read as `s32`. -/
def execGcd (s : State) : Host.Outcome State Fault Refusal :=
  issue .gcd (.gcd (absWord (gcdA s)) (absWord (gcdB s)) 0) 1 gcdTurn s

end Sys2Proof.Machine
end

