-- ==== Sys2Proof/Machine/Norm.lean ====
section
/-! DEFINITION. NORM (44_norm.md R150 to R153): 31 minus the number of arithmetic right shifts until the value is 0 or
-1 (90_conflicts.md C2). -/

namespace Sys2Proof.Machine

/-- The loop of R151: the test comes before the shift, and the shift is arithmetic (R152). It ends within 31 shifts. -/
def normCount (fuel : Nat) (value : Word) (c : BitVec 5) : BitVec 5 :=
  match fuel with
  | 0 => c
  | fuel + 1 => if value = 0 ∨ value = 0xFFFFFFFF#32 then c else normCount fuel (value.sshiftRight 1) (c + 1)

/-- The function `norm_int32` of R151, zero-extended to RES (30_encoding.md R81). -/
def normOf (value : Word) (c : BitVec 5) : Word := 31#32 - (normCount 32 value c).setWidth 32

/-- One engine step of NORM: the completion step (40_command_lifecycle.md R94). -/
def normTurn (s : State) : State :=
  match s.work with
  | .norm value c => State.complete (normOf value c) s
  | _ => s

/-- NORM (R150): the operand is `x[0]`, read as `s32`; the command needs `HAS_NORM` (30_encoding.md R76). -/
def execNorm (s : State) : Host.Outcome State Fault Refusal :=
  issue .norm (.norm (normVal s) 0) 1 normTurn s

end Sys2Proof.Machine
end

