-- ==== Sys2Proof/Machine/Vector.lean ====
section
/-! DEFINITION. The vector searches FEQ16, FMIN16 and FMAXA32 (45_vector.md R160 to R171): linear scans of an array in
memory, one access per element, no operand checked (R170). -/

namespace Sys2Proof.Machine

/-! ### FEQ16 -/

/-- At the head of FEQ16's loop (R161): the read of element `i` and the comparison of the 16-bit patterns, or completion
with the count when `i` is not below `vec_length`. -/
def feqScan (i count : Word) (s : State) : State :=
  if i.slt (feqLength s) then
    match memRead s (elemAddr (feqVec s) .two i) .two with
    | none => State.refuseAccess s
    | some e =>
      if e.setWidth 16 = feqN s then { s with work := .feq16 i count .hit }
      else { s with work := .feq16 (i + 1) count .scan }
  else State.complete count s

/-- The index write for a match at element `i` (R161, R164), and the early stop `count = max_results`, which is never
true when `max_results ≤ 0` (R162). -/
def feqHit (i count : Word) (s : State) : State :=
  match memWrite s (elemAddr (feqOut s) (idxSize s.cfg) count) (idxSize s.cfg) i with
  | none => State.refuseAccess s
  | some m =>
    if count + 1 = feqMax s then { s with mem := m, work := .feq16 i (count + 1) .stop }
    else { s with mem := m, work := .feq16 (i + 1) (count + 1) .scan }

/-- One step of FEQ16 from where it stands in its pseudocode. -/
def feqPhaseTurn (i count : Word) (phase : FeqPhase) (s : State) : State :=
  match phase with
  | .scan => feqScan i count s
  | .hit => feqHit i count s
  | .stop => State.complete count s

/-- One engine step of FEQ16 (40_command_lifecycle.md R94). -/
def feq16Turn (s : State) : State :=
  match s.work with
  | .refused => State.raise .busFault s
  | .feq16 i count phase => feqPhaseTurn i count phase s
  | _ => s

/-- FEQ16 (R161): `out_idx = x[0]`, `vec = x[1]`, `n = x[2][15:0]`, `vec_length = s32(x[3])`, `max_results = s32(x[4])`.
At most one read and one write per element, then completion. -/
def execFeq16 (s : State) : Host.Outcome State Fault Refusal :=
  issue .feq16 (.feq16 0 0 .scan) (2 * lengthOf (feqLength s) + 1) feq16Turn s

/-! ### FMIN16 -/

/-- The running minimum after element `e` at index `i`: element 0 is the seed, and the comparison is signed (R165). -/
def minStep (i : Word) (m e : Half) : Half :=
  if i = 0 then e else if e.slt m then e else m

/-- One engine step of FMIN16 (40_command_lifecycle.md R94). Element 0 is read unconditionally; with `vec_length ≤ 0` the
operation completes and RES is a free value (R166). -/
def fmin16Turn (s : State) : State :=
  match s.work with
  | .refused => State.raise .busFault s
  | .fmin16 i m =>
    if i = 0 ∨ i.slt (scanLength s) then
      match memRead s (elemAddr (scanVec s) .two i) .two with
      | none => State.refuseAccess s
      | some e => { s with work := .fmin16 (i + 1) (minStep i m (e.setWidth 16)) }
    else if (scanLength s).sle 0 then State.completeAny s
    else State.complete (m.signExtend 32) s
  | _ => s

/-- FMIN16 (R165): `vec = x[0]`, `vec_length = s32(x[1])`. DESIGN CHOICE: `i` and the running minimum hold 0 until the seed
is read, which no program can observe (log entry 21). -/
def execFmin16 (s : State) : Host.Outcome State Fault Refusal :=
  issue .fmin16 (.fmin16 0 0) (lengthOf (scanLength s) + 2) fmin16Turn s

/-! ### FMAXA32 -/

/-- The absolute value of an element in 64 bits, exact also for `INT32_MIN` (R167). -/
def absWide (e : Word) : BitVec 64 :=
  if (e.signExtend 64).slt 0 then 0 - e.signExtend 64 else e.signExtend 64

/-- The accumulator after element `e` at index `i`: element 0 is the seed (R167). -/
def maxStep (i : Word) (amax : BitVec 64) (e : Word) : BitVec 64 :=
  if i = 0 then absWide e else if amax.slt (absWide e) then absWide e else amax

/-- Saturation to `INT32_MAX`, and truncation (R167, R168). -/
def saturate (amax : BitVec 64) : Word :=
  (if (0x000000007FFFFFFF#64).slt amax then 0x000000007FFFFFFF#64 else amax).setWidth 32

/-- One engine step of FMAXA32 (40_command_lifecycle.md R94). Element 0 is read unconditionally; with `vec_length ≤ 0`
the operation completes and RES is a free value (R169). -/
def fmaxa32Turn (s : State) : State :=
  match s.work with
  | .refused => State.raise .busFault s
  | .fmaxa32 i amax =>
    if i = 0 ∨ i.slt (scanLength s) then
      match memRead s (elemAddr (scanVec s) .four i) .four with
      | none => State.refuseAccess s
      | some e => { s with work := .fmaxa32 (i + 1) (maxStep i amax e) }
    else if (scanLength s).sle 0 then State.completeAny s
    else State.complete (saturate amax) s
  | _ => s

/-- FMAXA32 (R167): `vec = x[0]`, `vec_length = s32(x[1])`. DESIGN CHOICE: `i` and the accumulator hold 0 until the seed is
read, which no program can observe (log entry 21). -/
def execFmaxa32 (s : State) : Host.Outcome State Fault Refusal :=
  issue .fmaxa32 (.fmaxa32 0 0) (lengthOf (scanLength s) + 2) fmaxa32Turn s

end Sys2Proof.Machine
end

