-- ==== Sys2Proof/Machine/Engine.lean ====
section
/-! DEFINITION. The engine's own step (40_command_lifecycle.md R90, R94, R104). -/

namespace Sys2Proof.Machine

/-- One engine step of the unit of a command (R104). -/
def unitTurn (i : Instr) (s : State) : State :=
  match i with
  | .gcd => gcdTurn s
  | .crc32 => crc32Turn s
  | .fls => flsTurn s
  | .norm => normTurn s
  | .feq16 => feq16Turn s
  | .fmin16 => fmin16Turn s
  | .fmaxa32 => fmaxa32Turn s

/-- One turn of the engine: one step of the operation OPL names while BUSY = 1; nothing when it is idle (R90,
60_exceptions.md R207) or while reset is asserted (70_reset_and_hazards.md R220). -/
def engineTurn (s : State) : State :=
  if s.status.busy && !s.resetAsserted then
    match instrOfOpcode s.opl with
    | some i => unitTurn i s
    | none => s
  else s

end Sys2Proof.Machine
end

