-- ==== Sys2Proof/Machine/Notation.lean ====
section
/-! DEFINITION. The host's notation as turns: the statements of 30_encoding.md R79 and the pseudo-instructions of R80. -/

namespace Sys2Proof.Machine

/-- The offset of an operand register (10_state.md R22). -/
def argOffset (i : Fin 5) : BitVec 6 := 0x10#6 + BitVec.ofNat 6 (4 * i.val)

/-- `wr ARGi, v`. -/
def wrArg (i : Fin 5) (v : Word) : Turn := .write (argOffset i) .four v

/-- A mnemonic: `wr CMD` of its command word. -/
def wrCommand (i : Instr) : Turn := .write 0x00#6 .four (encode i)

/-- `rd RES`. -/
def rdRes : Turn := .read 0x08#6 .four

/-- `rd STATUS`. -/
def rdStatus : Turn := .read 0x04#6 .four

/-- `clrovr`. -/
def clrOvr : Turn := .write 0x04#6 .four 0x00000100#32

/-- `call`: the operands in `x[0]`, `x[1]`, ... in order, the command, `wait`, `rd RES`. -/
def call (i : Instr) (operands : List Word) : List Turn :=
  (operands.zipIdx.map fun p => wrArg (Fin.ofNat 5 p.2) p.1) ++ [wrCommand i, .wait, rdRes]

end Sys2Proof.Machine
end

