-- ==== Sys2Proof/Machine/Falign.lean ====
section
/-! DEFINITION. `falign`, the frame-alignment calculation, a HOST sequence over two GCD commands (41_gcd.md R117, R118;
00_scope.md R2), as turns of the host. The engine has no divider (R114): the divisions and their one fault are the host's
(60_exceptions.md R202). Each `call GCD` is the turns of R80, so its `wait` polls for as long as the engine is not done;
whatever the engine is doing, the sequence itself never stops for it. -/

namespace Sys2Proof.Machine

/-- The value the host read last, `g` in `g <- call GCD ..` (R117), and the state after it is taken. A host that has read
nothing holds a free value (log entry 20). -/
def lastRead (s : State) : Word × State :=
  match s.seen with
  | [] => (Config.any32 s.draws, { s with draws := s.draws + 1 })
  | g :: _ => (g, s)

/-- `g1 <- call GCD byte_align, frame_size`, and the host goes on with `g1` (R117). -/
def falignBegin (byteAlign frameAlignReq frameSize : Word) (s : State) : State :=
  { s with schedule := call .gcd [byteAlign, frameSize] ++ .falignDivide byteAlign frameAlignReq :: s.schedule }

/-- `frame_num <- byte_align /u g1`, then `g2 <- call GCD frame_num, frame_align_req`, and the host goes on with `g2`
(R117). `g1 = 0` is the host's fault (R118, R202). -/
def falignDivide (byteAlign frameAlignReq : Word) (s : State) : Host.Outcome State Fault Refusal :=
  let g := lastRead s
  if g.1 = 0 then .fault .divisionByZero
  else
    .next { g.2 with
      schedule := call .gcd [byteAlign / g.1, frameAlignReq] ++ .falignFinish frameAlignReq (byteAlign / g.1) :: s.schedule }

/-- `return (frame_align_req * frame_num) /u g2`, multiply first (R117): the host holds the result. `g2 = 0` is the host's
fault (R118, R202); a product that does not fit 32 bits is refused (R118 b, 93_implementation_defined.md U5). -/
def falignFinish (frameAlignReq frameNum : Word) (s : State) : Host.Outcome State Fault Refusal :=
  let g := lastRead s
  if g.1 = 0 then .fault .divisionByZero
  else if frameAlignReq.toNat * frameNum.toNat < 2 ^ 32 then
    .next (State.returnData ((frameAlignReq * frameNum) / g.1) g.2)
  else .refused .falignOverflow

end Sys2Proof.Machine
end

