-- ==== Sys2Proof/Machine/Bus.lean ====
section
/-! DEFINITION. The host's side: register reads and writes (10_state.md R22, R29, R30, 40_command_lifecycle.md R91 to
R99), memory accesses of other masters, reset, and every turn that is not the write of a command's word to CMD. -/

namespace Sys2Proof.Machine

/-- The register at an offset of the window (10_state.md R22). -/
def regOf (off : BitVec 6) : Reg :=
  match off with
  | 0x00#6 => .cmd
  | 0x04#6 => .status
  | 0x08#6 => .res
  | 0x0C#6 => .cap
  | 0x10#6 => .arg 0
  | 0x14#6 => .arg 1
  | 0x18#6 => .arg 2
  | 0x1C#6 => .arg 3
  | 0x20#6 => .arg 4
  | _ => .reserved

/-- `wr CMD, w` for a word that is no command: overrun while BUSY = 1, else IllegalCmd (40_command_lifecycle.md R92 cases
1 and 2, 30_encoding.md R75). -/
def writeIllegal (s : State) : State :=
  if s.status.busy then State.overrun s else State.raise .illegalCmd s

/-- A 32-bit write of a register that starts no command (40_command_lifecycle.md R91, R97, R98). -/
def writeReg (r : Reg) (v : Word) (s : State) : State :=
  match r with
  | .cmd => writeIllegal s
  | .status => { s with status := Status.written v s.status }
  | .arg i => if s.status.busy then State.overrun s else { s with args := Args.set s.args i v }
  | .res => s
  | .cap => s
  | .reserved => s

/-- A host read of RES: `RES`, or a fresh free value while RES is `ANY_32` (40_command_lifecycle.md R99; log entry 4). -/
def readRes (s : State) : State :=
  if s.resOpen then { State.returnData (Config.any32 s.draws) s with draws := s.draws + 1 }
  else State.returnData s.res s

/-- A 32-bit read of a register: it changes nothing in the engine (10_state.md R22, R29, 40_command_lifecycle.md R99). -/
def readReg (r : Reg) (s : State) : State :=
  match r with
  | .cmd => State.returnData 0 s
  | .status => State.returnData (statusWord s.status) s
  | .res => readRes s
  | .cap => State.returnData (capWord s.cfg) s
  | .arg i => State.returnData (State.x s i) s
  | .reserved => State.returnData 0 s

/-- A host write to the window: not accepted while reset is asserted (70_reset_and_hazards.md R220), refused unless it is
an aligned 32-bit access (10_state.md R30). -/
def hostWrite (off : BitVec 6) (n : AccessSize) (v : Word) (s : State) : Host.Outcome State Fault Refusal :=
  if s.resetAsserted then .next s
  else if registerAccessWf off n then .next (writeReg (regOf off) v s)
  else .refused .registerAccess

/-- A host read of the window, accepted and refused as a write is. -/
def hostRead (off : BitVec 6) (n : AccessSize) (s : State) : Host.Outcome State Fault Refusal :=
  if s.resetAsserted then .next s
  else if registerAccessWf off n then .next (readReg (regOf off) s)
  else .refused .registerAccess

/-- The host polls STATUS (30_encoding.md R80 `wait`): it goes on when DONE = 1; until then the engine moves and the host
polls again. While reset is asserted its reads are not accepted (70_reset_and_hazards.md R220). -/
def hostWait (rest : List Turn) (s : State) : State :=
  if s.resetAsserted then s
  else if s.status.done then State.returnData (statusWord s.status) { s with schedule := rest }
  else engineTurn s

/-- A store of another master: its bytes are in memory at once (20_memory.md R47, R55). A store that meets the window is a
register access other than an aligned 32-bit one: refused (10_state.md R30; log entry 16). -/
def masterStore (a : Word) (bytes : List Byte) (s : State) : Host.Outcome State Fault Refusal :=
  if meetsWindow s.cfg a bytes.length then .refused .registerAccess
  else .next { s with mem := Memory.store s.mem a bytes }

/-- A load of one byte by another master (log entry 16). -/
def masterLoad (a : Word) (s : State) : Host.Outcome State Fault Refusal :=
  if meetsWindow s.cfg a 1 then .refused .registerAccess
  else .next (State.returnData ((Memory.byteAt s.mem a.toNat).setWidth 32) s)

/-- Every turn but the write of a command's word to CMD, which `fetch` takes. With nothing scheduled only the engine is
left to move. -/
def otherTurn (s : State) : Host.Outcome State Fault Refusal :=
  match s.schedule with
  | [] => .next (engineTurn s)
  | .engine :: rest => .next (engineTurn { s with schedule := rest })
  | .write off n v :: rest => hostWrite off n v { s with schedule := rest }
  | .read off n :: rest => hostRead off n { s with schedule := rest }
  | .wait :: rest => .next (hostWait rest s)
  | .store a bytes :: rest => masterStore a bytes { s with schedule := rest }
  | .load a :: rest => masterLoad a { s with schedule := rest }
  | .assertReset :: rest => .next { State.clear s with schedule := rest, resetAsserted := true }
  | .releaseReset :: rest => .next { s with schedule := rest, resetAsserted := false }
  | .falign ba far fs :: rest => .next (falignBegin ba far fs { s with schedule := rest })
  | .falignDivide ba far :: rest => falignDivide ba far { s with schedule := rest }
  | .falignFinish far num :: rest => falignFinish far num { s with schedule := rest }

/-- The command the next turn issues, and the state it is issued in: the next turn is an aligned 32-bit write to CMD of a
word that decodes, and reset is not asserted. -/
def fetch (s : State) : Option (Instr × State) :=
  match s.schedule with
  | .write off n v :: rest =>
    if s.resetAsserted then none
    else if registerAccessWf off n ∧ regOf off = .cmd then
      match decode v with
      | .ok i => some (i, { s with schedule := rest })
      | .error _ => none
    else none
  | _ => none

/-- The state in which the very next turn writes the command word `v` to an engine that is idle and not in reset (log
entry 17). -/
def placeCommand (v : Word) (s : State) : State :=
  { s with schedule := .write 0x00#6 .four v :: s.schedule, resetAsserted := false,
           status := { s.status with busy := false }, opl := 0, work := .dead }

end Sys2Proof.Machine
end

