-- ==== Sys2Proof/Machine/Dispatch.lean ====
section
/-! DEFINITION. The dispatch of a command to its meaning: what the write of its word to CMD does (40_command_lifecycle.md
R92), with the operation it starts run to its end where no other agent moves before completion (R94). -/

namespace Sys2Proof.Machine

/-- The meaning of a command. -/
def exec (i : Instr) (s : State) : Host.Outcome State Fault Refusal :=
  match i with
  | .gcd => Sys2Proof.Machine.execGcd s
  | .crc32 => Sys2Proof.Machine.execCrc32 s
  | .fls => Sys2Proof.Machine.execFls s
  | .norm => Sys2Proof.Machine.execNorm s
  | .feq16 => Sys2Proof.Machine.execFeq16 s
  | .fmin16 => Sys2Proof.Machine.execFmin16 s
  | .fmaxa32 => Sys2Proof.Machine.execFmaxa32 s

end Sys2Proof.Machine
end

