-- ==== Sys2Proof/Machine/Step.lean ====
section
/-! DEFINITION. One step of the machine: the next turn in the schedule. -/

namespace Sys2Proof.Machine

/-- One step: the command the next turn issues, or whatever else the next turn is (40_command_lifecycle.md R90). -/
def step (s : State) : Host.Outcome State Fault Refusal :=
  match fetch s with
  | some (i, t) => exec i t
  | none => otherTurn s

/-- `s` with the command whose `nbits` bits are `w` as its next turn (log entry 17). The bits above `nbits` are zero. -/
def State.withFetchWord (s : State) (nbits w : Nat) : State :=
  placeCommand (BitVec.ofNat 32 (w % 2 ^ nbits)) s

end Sys2Proof.Machine
end

