-- ==== Sys2Proof/Safety.lean ====
section
/-! DEFINITION. The terms the claims are stated in: the invariants of the machine, when a command is accepted and runs
undisturbed, what a completion and a BUS_FAULT leave, and the contents of arrays in memory. -/

namespace Sys2Proof.Safety

open Sys2Proof.Machine

/-! ### Invariants -/

/-- Whether working registers are those of a command's unit (10_state.md R25): the unit's own, or the position after a
refused access, which only a command that accesses memory can have. -/
def belongs (i : Instr) (w : Work) : Bool :=
  match i, w with
  | .gcd, .gcd _ _ _ => true
  | .crc32, .crc32 _ _ _ _ => true
  | .fls, .fls _ _ => true
  | .norm, .norm _ _ => true
  | .feq16, .feq16 _ _ _ => true
  | .fmin16, .fmin16 _ _ => true
  | .fmaxa32, .fmaxa32 _ _ => true
  | .crc32, .refused => true
  | .feq16, .refused => true
  | .fmin16, .refused => true
  | .fmaxa32, .refused => true
  | _, _ => false

/-- STATUS is one a run can show: BUSY and DONE are never both 1 (10_state.md R16), ERR is one of 0 to 3 (R18), 0 while
an operation is in flight (R18), and nonzero only when a command has finished (R17, R18). -/
def StatusLegal (t : Status) : Prop :=
  ¬(t.busy = true ∧ t.done = true) ∧ t.err ≤ 3 ∧ (t.busy = true → t.err = 0) ∧ (t.err ≠ 0 → t.done = true)

/-- While BUSY = 1, OPL is the opcode of a command and the working registers are that unit's (10_state.md R25). -/
def FlightLegal (s : State) : Prop :=
  s.status.busy = true → ∃ i : Instr, s.opl = opcodeOf i ∧ belongs i s.work = true

/-- RES is `ANY_32` while BUSY = 1 and while ERR = 3 (10_state.md R13). -/
def ResLegal (s : State) : Prop :=
  (s.status.busy = true → s.resOpen = true) ∧ (s.status.err = 3 → s.resOpen = true)

/-- While reset is asserted the engine is as after reset: idle, not done, no error, no overrun (70_reset_and_hazards.md
R220). -/
def ResetLegal (s : State) : Prop :=
  s.resetAsserted = true → s.status = State.reset.status ∧ s.resOpen = true

/-- The invariant of the command lifecycle. -/
def Lifecycle (s : State) : Prop :=
  StatusLegal s.status ∧ FlightLegal s ∧ ResLegal s ∧ ResetLegal s

/-! ### Runs -/

/-- `k` steps of the machine, stopping at a fault or a refusal. -/
def runSteps (k : Nat) (s : State) : Host.Outcome State Fault Refusal :=
  match k with
  | 0 => .next s
  | k + 1 =>
    match step s with
    | .next t => runSteps k t
    | .fault f => .fault f
    | .refused r => .refused r

/-! ### Commands -/

/-- The command is accepted when its word is written now, and no other agent moves before its operation completes: the
engine is idle, the unit is present (40_command_lifecycle.md R92), and the schedule is quiet (20_memory.md R55, R56). -/
abbrev Ready (i : Instr) (s : State) : Prop :=
  s.status.busy = false ∧ present s.cfg i = true ∧ quiet s = true

/-- The edge of GCD at which completion is not promised (41_gcd.md R113). -/
abbrev GcdEdge (i : Instr) (s : State) : Prop :=
  i = .gcd ∧ s.cfg.gcdMinPolicy = .refuse ∧ (gcdA s = int32Min ∨ gcdB s = int32Min)

/-- What no command changes from its acceptance to its end: the parameters, the operand registers (10_state.md R12), OVR,
the reset input, and what the model keeps of the other agents. -/
abbrev Kept (s t : State) : Prop :=
  t.cfg = s.cfg ∧ t.args = s.args ∧ t.status.ovr = s.status.ovr ∧ t.resetAsserted = s.resetAsserted ∧
    t.schedule = s.schedule ∧ t.seen = s.seen

/-- The command of `s` has completed in `t` with ERR = 0: BUSY 0, DONE 1, ERR 0 (40_command_lifecycle.md R95). -/
abbrev Completed (s t : State) : Prop :=
  t.status = { busy := false, done := true, err := 0, ovr := s.status.ovr } ∧ Kept s t

/-- RES holds the value `r`, and a host read returns it (40_command_lifecycle.md R95, R99). -/
abbrev Result (t : State) (r : Word) : Prop := t.res = r ∧ t.resOpen = false

/-- The operation of `s` has ended in `t` with BUS_FAULT: BUSY 0, DONE 1, ERR 3, RES `ANY_32` (60_exceptions.md R194). -/
abbrev BusFaulted (s t : State) : Prop :=
  t.status = { busy := false, done := true, err := 3, ovr := s.status.ovr } ∧ t.resOpen = true ∧ Kept s t

/-! ### Arrays in memory -/

/-- Every access to elements `0 .. n-1` of an array is admitted. -/
abbrev Admitted (s : State) (base : Word) (size : AccessSize) (k : AccessKind) (n : Nat) : Prop :=
  ∀ i < n, admits s.cfg (elemAddr base size (BitVec.ofNat 32 i)) size k = true

/-- The value of element `i` of an array, zero-extended, in the instance's byte order (20_memory.md R42, R45). -/
def elemValue (s : State) (base : Word) (size : AccessSize) (i : Nat) : Word :=
  assemble (inByteOrder s.cfg
    (Memory.load s.mem (elemAddr base size (BitVec.ofNat 32 i)) (AccessSize.bytes size)))

/-- The first `n` bytes of a byte array. -/
def byteArray (s : State) (base : Word) (n : Nat) : List Byte :=
  (List.range n).map fun i => (elemValue s base .one i).setWidth 8

/-- The first `n` elements of an int16 array. -/
def halfArray (s : State) (base : Word) (n : Nat) : List Half :=
  (List.range n).map fun i => (elemValue s base .two i).setWidth 16

/-- The first `n` elements of an int32 array. -/
def wordArray (s : State) (base : Word) (n : Nat) : List Word :=
  (List.range n).map fun i => elemValue s base .four i

/-! ### The functions of the document, on values -/

/-- `gcd` of R112 as a function of its operands, the magnitudes read unsigned. -/
def gcdOf (a b : Word) : Word := gcdWords (absWord a) (absWord b) 0

/-- One shift of the CRC register, reflected, with the polynomial of R131. -/
def crcShift (c : Word) : Word := if c.getLsbD 0 then (c >>> 1) ^^^ 0xEDB88320#32 else c >>> 1

/-- The CRC register after one byte, in the usual form: the byte is added to the low end and the whole register shifted
eight times. It uses neither the mask nor the fold of R131, nor any definition of the machine. -/
def crcRegister (c : Word) (d : Byte) : Word := crcShift^[8] (c ^^^ d.setWidth 32)

/-- The reflected CRC-32 of a list of bytes, chained from `base` (R131, R132). -/
def crcOf (base : Word) (bytes : List Byte) : Word := ~~~(bytes.foldl crcRegister (~~~base))

/-- The indices of all elements equal to `n`, ascending (45_vector.md R161). -/
def matchesOf (n : Half) (elems : List Half) : List Nat :=
  (List.range elems.length).filter fun i => decide (elems[i]? = some n)

/-- Whether FEQ16 stops early: `max_results > 0` and there are that many matches (R162). -/
def stopsEarly (n : Half) (max : Word) (elems : List Half) : Bool :=
  (0#32).slt max && decide (max.toInt.toNat ≤ (matchesOf n elems).length)

/-- The indices FEQ16 writes, in order: all matches, or the first `max_results` of them (R162). -/
def indicesOf (n : Half) (max : Word) (elems : List Half) : List Nat :=
  if stopsEarly n max elems then (matchesOf n elems).take max.toInt.toNat else matchesOf n elems

/-- How many elements FEQ16 reads: up to and including the one at which the scan ends (R161, R162). -/
def scannedOf (n : Half) (max : Word) (elems : List Half) : Nat :=
  if stopsEarly n max elems then (matchesOf n elems).getD (max.toInt.toNat - 1) 0 + 1 else elems.length

/-- Memory after index elements are written in order from element `c` of the index array (R161, R164). -/
def storeIndices (cfg : Config) (out : Word) (c : Nat) (indices : List Nat) (m : Memory) : Memory :=
  match indices with
  | [] => m
  | i :: rest =>
    storeIndices cfg out (c + 1) rest
      (Memory.store m (elemAddr out (idxSize cfg) (BitVec.ofNat 32 c))
        (inByteOrder cfg (splitBytes (AccessSize.bytes (idxSize cfg)) (BitVec.ofNat 32 i))))

/-- No byte of the first `count` index elements is a byte of the first `n` input elements (20_memory.md R57). -/
abbrev Disjoint (cfg : Config) (out : Word) (count : Nat) (vec : Word) (n : Nat) : Prop :=
  ∀ c < count, ∀ i < n, ∀ j < AccessSize.bytes (idxSize cfg), ∀ l < 2,
    elemAddr out (idxSize cfg) (BitVec.ofNat 32 c) + BitVec.ofNat 32 j
      ≠ elemAddr vec .two (BitVec.ofNat 32 i) + BitVec.ofNat 32 l

end Sys2Proof.Safety
end

