-- ==== Sys2Proof/Certificates/Slice0/Obligations.lean ====
section
/-! DEFINITION. The statements for the provers, taken from the numbered rules of spec/. -/

open Sys2Proof Sys2Proof.Machine Sys2Proof.Safety

/-! ### Decoding and the step -/

/-- The command words written out in 30_encoding.md R72 and 95_test_vectors.md Q5 to Q8 decode as they say: 1 to 7 to the
seven commands, 0, 8 and 15 refused for their opcode, 0x11 and 0x80000001 for their reserved bits. -/
def Obligations.DecodesSpecWords : Prop :=
  decode 0x00000001#32 = .ok .gcd ∧ decode 0x00000002#32 = .ok .crc32 ∧ decode 0x00000003#32 = .ok .fls ∧
  decode 0x00000004#32 = .ok .norm ∧ decode 0x00000005#32 = .ok .feq16 ∧ decode 0x00000006#32 = .ok .fmin16 ∧
  decode 0x00000007#32 = .ok .fmaxa32 ∧ decode 0x00000000#32 = .error .reservedOpcode ∧
  decode 0x00000008#32 = .error .reservedOpcode ∧ decode 0x0000000F#32 = .error .reservedOpcode ∧
  decode 0x00000011#32 = .error .reservedBits ∧ decode 0x80000001#32 = .error .reservedBits

/-- Decoder and encoder are inverse to each other over all words and all commands, and a word decodes exactly when it is
well formed (R71, R72, R75). -/
def Obligations.DecodeAndEncodeAgree : Prop :=
  (∀ (w : Word) (i : Instr), decode w = .ok i ↔ w = encode i) ∧
  (∀ i : Instr, decodeTableWord 32 (encode i).toNat = some i) ∧
  (∀ w : Word, (∃ i, decode w = .ok i) ↔ (fieldsOf w).wf = true)

/-- Which words the decoder refuses, and for which reason: RSV not zero, or OPC 0 or 8 to 15 (R75). -/
def Obligations.DecodeRefusesReservedWords : Prop :=
  ∀ w : Word,
    (decode w = .error .reservedBits ↔ 16 ≤ w.toNat) ∧
    (decode w = .error .reservedOpcode ↔ w.toNat = 0 ∨ (8 ≤ w.toNat ∧ w.toNat < 16))

/-- A step whose next turn writes a command's word to CMD is that command's meaning, in the state with the turn taken
from the schedule; and so it is for the state `withFetchWord` makes, which is the model's own way to place a command (log
entry 17). -/
def Obligations.StepRunsDecodedCommand : Prop :=
  (∀ (s : State) (i : Instr) (w : Word) (rest : List Turn), s.resetAsserted = false →
    s.schedule = .write 0x00#6 .four w :: rest → decode w = .ok i →
    step s = exec i { s with schedule := rest }) ∧
  (∀ (s : State) (i : Instr), step (s.withFetchWord 32 (encode i).toNat) =
    exec i { s with resetAsserted := false, status := { s.status with busy := false }, opl := 0, work := .dead })

/-- The write of a word to CMD, the checks of R92 in their order: while BUSY = 1 it is dropped and sets OVR; else a word
with RSV not zero or OPC 0 or 8 to 15 is rejected with code 1; else a command whose unit is absent is rejected with code
2; else it is accepted. Where another agent moves before completion the step is the acceptance alone; where the schedule
is quiet the step is `exec` of the command, which R94 permits to be more than the acceptance and which is the model's
choice (log entry 6). And `Present`: true for GCD, CRC32 and FLS, `HAS_NORM` for NORM, `HAS_VEC` for the vector
searches. -/
def Obligations.CommandWriteChecksInOrder : Prop :=
  (∀ (s : State) (w : Word) (rest : List Turn), s.resetAsserted = false →
    s.schedule = .write 0x00#6 .four w :: rest →
    (s.status.busy = true → step s = .next { s with schedule := rest, status := { s.status with ovr := true } }) ∧
    (s.status.busy = false → w.toNat = 0 ∨ 8 ≤ w.toNat →
      step s = .next { s with schedule := rest, status := { s.status with done := true, err := 1 } }) ∧
    (∀ i : Instr, s.status.busy = false → w = encode i → present s.cfg i = false →
      step s = .next { s with schedule := rest, status := { s.status with done := true, err := 2 } }) ∧
    (∀ i : Instr, s.status.busy = false → w = encode i → present s.cfg i = true →
      step s = exec i { s with schedule := rest } ∧
      (quiet { s with schedule := rest } = false →
        ∃ start, belongs i start = true ∧ step s = .next (State.accept i start { s with schedule := rest })))) ∧
  (∀ c : Config, present c .gcd = true ∧ present c .crc32 = true ∧ present c .fls = true ∧
    present c .norm = c.hasNorm ∧ present c .feq16 = c.hasVec ∧ present c .fmin16 = c.hasVec ∧
    present c .fmaxa32 = c.hasVec)

/-- Acceptance (R93): BUSY 1, DONE 0, ERR 0, OPL the opcode, RES `ANY_32`, OVR, the operands and memory untouched; and
while BUSY = 1 no register write changes the operands. -/
def Obligations.AcceptanceStartsOperation : Prop :=
  (∀ (i : Instr) (s : State), s.status.busy = false → present s.cfg i = true → quiet s = false →
    ∃ t, exec i s = .next t ∧
      t.status = { busy := true, done := false, err := 0, ovr := s.status.ovr } ∧ t.opl = opcodeOf i ∧
      belongs i t.work = true ∧ t.res = Config.any32 s.draws ∧ t.resOpen = true ∧ t.args = s.args ∧ t.mem = s.mem) ∧
  (∀ (s t : State) (off : BitVec 6) (n : AccessSize) (v : Word) (rest : List Turn), s.status.busy = true →
    s.schedule = .write off n v :: rest → step s = .next t → t.args = s.args)

/-- Rejection with code 1 or 2 (R96): ERR and DONE are written and nothing else. -/
def Obligations.RejectionWritesErrAndDoneOnly : Prop :=
  (∀ (s : State) (w : Word) (rest : List Turn), s.resetAsserted = false → s.status.busy = false →
    s.schedule = .write 0x00#6 .four w :: rest → (∀ i, decode w ≠ .ok i) →
    step s = .next { s with schedule := rest, status := { s.status with done := true, err := 1 } }) ∧
  (∀ (i : Instr) (s : State), s.status.busy = false → present s.cfg i = false →
    exec i s = .next { s with status := { s.status with done := true, err := 2 } })

/-! ### The register window -/

/-- `wr ARGi, v` (R91): `x[i] <- v` and no other change when BUSY = 0; dropped, with OVR set and no other change, when
BUSY = 1. -/
def Obligations.OperandWriteOrOverrun : Prop :=
  ∀ (s : State) (i : Fin 5) (v : Word) (rest : List Turn), s.resetAsserted = false → s.schedule = wrArg i v :: rest →
    (s.status.busy = false →
      step s = .next { s with schedule := rest, args := Args.set s.args i v } ∧
      Args.get (Args.set s.args i v) i = v ∧ ∀ j, j ≠ i → Args.get (Args.set s.args i v) j = Args.get s.args j) ∧
    (s.status.busy = true → step s = .next { s with schedule := rest, status := { s.status with ovr := true } })

/-- `wr STATUS, w` (R97): `OVR <- OVR & ~w[8]`, nothing else, whatever BUSY is. -/
def Obligations.StatusWriteClearsOverrun : Prop :=
  ∀ (s : State) (w : Word) (rest : List Turn), s.resetAsserted = false →
    s.schedule = .write 0x04#6 .four w :: rest →
    step s = .next { s with schedule := rest, status := { s.status with ovr := s.status.ovr && !w.getLsbD 8 } }

/-- A write to RES, CAP or a reserved offset is ignored, whatever BUSY is (R98). -/
def Obligations.ReadOnlyWritesIgnored : Prop :=
  ∀ (s : State) (off : BitVec 6) (v : Word) (rest : List Turn), s.resetAsserted = false →
    (off = 0x08#6 ∨ off = 0x0C#6 ∨ (0x24#6 ≤ off ∧ off &&& 3#6 = 0#6)) →
    s.schedule = .write off .four v :: rest → step s = .next { s with schedule := rest }

/-- A register read changes nothing of the engine, whatever BUSY is (R29): only the data the host has seen, and the
model's count of free values. A read of STATUS returns the fields as they are. -/
def Obligations.RegisterReadHasNoEffect : Prop :=
  (∀ (s : State) (off : BitVec 6) (rest : List Turn), s.resetAsserted = false → off &&& 3#6 = 0#6 →
    s.schedule = .read off .four :: rest →
    ∃ v d, step s = .next { s with schedule := rest, seen := v :: s.seen, draws := d }) ∧
  (∀ (s : State) (rest : List Turn), s.resetAsserted = false → s.schedule = .read 0x04#6 .four :: rest →
    step s = .next { s with schedule := rest, seen := statusWord s.status :: s.seen })

/-- What a register read returns, offset by offset (R22, R99). While RES is `ANY_32` a read of it is a free value. -/
def Obligations.RegisterReadValues : Prop :=
  ∀ (s : State) (off : BitVec 6) (rest : List Turn), s.resetAsserted = false → s.schedule = .read off .four :: rest →
    (off = 0x00#6 → step s = .next { s with schedule := rest, seen := 0#32 :: s.seen }) ∧
    (off = 0x08#6 → s.resOpen = false → step s = .next { s with schedule := rest, seen := s.res :: s.seen }) ∧
    (off = 0x08#6 → s.resOpen = true →
      step s = .next { s with schedule := rest, seen := Config.any32 s.draws :: s.seen, draws := s.draws + 1 }) ∧
    (off = 0x0C#6 → step s = .next { s with schedule := rest, seen := capWord s.cfg :: s.seen }) ∧
    (∀ i : Fin 5, off = argOffset i → step s = .next { s with schedule := rest, seen := s.x i :: s.seen }) ∧
    (0x24#6 ≤ off → off &&& 3#6 = 0#6 → step s = .next { s with schedule := rest, seen := 0#32 :: s.seen })

/-- The STATUS word: the fields at the bits of R15; the reserved bits read 0; a write to STATUS changes nothing but OVR
(R20). -/
def Obligations.StatusWordLayout : Prop :=
  (∀ t : Status, (statusWord t).getLsbD 0 = t.busy ∧ (statusWord t).getLsbD 1 = t.done ∧
    (statusWord t).extractLsb' 4 3 = t.err ∧ (statusWord t).getLsbD 8 = t.ovr ∧
    ∀ k, k = 2 ∨ k = 3 ∨ k = 7 ∨ 9 ≤ k → (statusWord t).getLsbD k = false) ∧
  (∀ (s t : State) (w : Word) (rest : List Turn), s.resetAsserted = false →
    s.schedule = .write 0x04#6 .four w :: rest → step s = .next t →
    t = { s with schedule := rest, status := { s.status with ovr := t.status.ovr } })

/-- CAP (R21): bit `n` is the presence of the command with opcode `n`, bits 16 and 17 show `IDX_BYTES` and `BIG_ENDIAN`,
the others are 0; the four values of R21; writes are ignored. -/
def Obligations.CapReportsInstance : Prop :=
  (∀ c : Config,
    (∀ i : Instr, (capWord c).getLsbD (opcodeOf i).toNat = present c i) ∧
    present c .gcd = true ∧ present c .crc32 = true ∧ present c .fls = true ∧ present c .norm = c.hasNorm ∧
    present c .feq16 = c.hasVec ∧ present c .fmin16 = c.hasVec ∧ present c .fmaxa32 = c.hasVec ∧
    ((capWord c).getLsbD 16 = true ↔ c.idxBytes = .four) ∧ (capWord c).getLsbD 17 = c.bigEndian ∧
    (∀ k, k = 0 ∨ (8 ≤ k ∧ k ≤ 15) ∨ 18 ≤ k → (capWord c).getLsbD k = false) ∧
    (c.idxBytes = .two → c.bigEndian = false →
      (c.hasNorm = true → c.hasVec = true → capWord c = 0x000000FE#32) ∧
      (c.hasNorm = false → c.hasVec = true → capWord c = 0x000000EE#32) ∧
      (c.hasNorm = true → c.hasVec = false → capWord c = 0x0000001E#32) ∧
      (c.hasNorm = false → c.hasVec = false → capWord c = 0x0000000E#32))) ∧
  (∀ (s : State) (rest : List Turn), s.resetAsserted = false → s.schedule = .read 0x0C#6 .four :: rest →
    step s = .next { s with schedule := rest, seen := capWord s.cfg :: s.seen }) ∧
  (∀ (s : State) (v : Word) (rest : List Turn), s.resetAsserted = false → s.schedule = .write 0x0C#6 .four v :: rest →
    step s = .next { s with schedule := rest })

/-- A register access that is not an aligned 32-bit access has no defined effect: it is refused (R30). -/
def Obligations.NonWordRegisterAccessRefused : Prop :=
  ∀ (s : State) (off : BitVec 6) (n : AccessSize) (v : Word) (rest : List Turn), s.resetAsserted = false →
    (n ≠ .four ∨ off &&& 3#6 ≠ 0#6) →
    (s.schedule = .write off n v :: rest → step s = .refused .registerAccess) ∧
    (s.schedule = .read off n :: rest → step s = .refused .registerAccess)

/-- OVR (R19): a write to CMD or to an operand register while BUSY = 1 is dropped and sets it; nothing else sets it; only
reset, or a write to STATUS with bit 8 = 1, clears it. -/
def Obligations.OverrunIsSticky : Prop :=
  (∀ (s : State) (off : BitVec 6) (v : Word) (rest : List Turn), s.resetAsserted = false → s.status.busy = true →
    (off = 0x00#6 ∨ ∃ i, off = argOffset i) → s.schedule = .write off .four v :: rest →
    step s = .next { s with schedule := rest, status := { s.status with ovr := true } }) ∧
  (∀ s t : State, step s = .next t → s.status.ovr = false → t.status.ovr = true →
    s.status.busy = true ∧ ∃ off v rest, (off = 0x00#6 ∨ ∃ i, off = argOffset i) ∧
      s.schedule = .write off .four v :: rest) ∧
  (∀ s t : State, step s = .next t → s.status.ovr = true → t.status.ovr = false →
    (∃ rest, s.schedule = .assertReset :: rest) ∨
    (∃ v rest, v.getLsbD 8 = true ∧ s.schedule = .write 0x04#6 .four v :: rest))

/-- No operation reads OVR (R19): a command of an idle engine does the same whatever OVR is, and leaves OVR as it was. -/
def Obligations.OverrunDoesNotInfluenceCommands : Prop :=
  ∀ (i : Instr) (s t : State) (b : Bool), s.status.busy = false → exec i s = .next t →
    exec i { s with status := { s.status with ovr := b } } = .next { t with status := { t.status with ovr := b } }

/-! ### Reset and the other agents -/

/-- The state after reset (10_state.md R28): STATUS reads 0, CAP its constant, which is that of the default instance by
the model's choice of parameters (log entry 2), RES is `ANY_32`, nothing in flight. -/
def Obligations.ResetStateIsIdle : Prop :=
  statusWord State.reset.status = 0#32 ∧ capWord State.reset.cfg = 0x000000FE#32 ∧ State.reset.resOpen = true ∧
  State.reset.work = .dead ∧ State.reset.resetAsserted = false ∧ engineTurn State.reset = State.reset

/-- Asserting reset abandons the operation in flight and leaves memory and the parameters as they are; while reset is
asserted no register access is accepted and the engine makes no step; releasing it leaves the engine as it is
(70_reset_and_hazards.md R220, R221). That an access made then is dropped, a read returning nothing, is the model's
choice (log entry 13). -/
def Obligations.ResetAbandonsOperation : Prop :=
  (∀ (s : State) (rest : List Turn), s.schedule = .assertReset :: rest →
    ∃ t, step s = .next t ∧ t.status = { busy := false, done := false, err := 0, ovr := false } ∧ t.work = .dead ∧
      t.resOpen = true ∧ t.resetAsserted = true ∧ t.mem = s.mem ∧ t.cfg = s.cfg ∧ t.schedule = rest ∧ t.seen = s.seen) ∧
  (∀ (s : State) (rest : List Turn), s.schedule = .releaseReset :: rest →
    step s = .next { s with schedule := rest, resetAsserted := false }) ∧
  (∀ (s : State) (rest : List Turn), s.resetAsserted = true →
    (∀ off n v, s.schedule = .write off n v :: rest → step s = .next { s with schedule := rest }) ∧
    (∀ off n, s.schedule = .read off n :: rest → step s = .next { s with schedule := rest }) ∧
    (s.schedule = .engine :: rest → step s = .next { s with schedule := rest }))

/-- `wait` (30_encoding.md R80): when DONE = 1 the host reads STATUS and goes on; until then the engine moves and the
host polls again. That no other agent moves between two polls is the model's choice (log entry 7). -/
def Obligations.WaitPollsUntilDone : Prop :=
  ∀ (s : State) (rest : List Turn), s.resetAsserted = false → s.schedule = .wait :: rest →
    (s.status.done = true →
      step s = .next { s with schedule := rest, seen := statusWord s.status :: s.seen }) ∧
    (s.status.done = false → step s = .next (engineTurn s))

/-- A store of another master is in memory at once, also while an operation is in flight (20_memory.md R47, R55), and
changes nothing else; one that meets the engine's window is refused, which is the model's choice (log entry 16). -/
def Obligations.MasterStoreInterleaves : Prop :=
  ∀ (s : State) (a : Word) (bytes : List Byte) (rest : List Turn), s.schedule = .store a bytes :: rest →
    (meetsWindow s.cfg a bytes.length = false →
      step s = .next { s with schedule := rest, mem := Memory.store s.mem a bytes }) ∧
    (meetsWindow s.cfg a bytes.length = true → step s = .refused .registerAccess)

/-- An access that meets the engine's own window is not admitted and raises BusFault (20_memory.md R59). -/
def Obligations.OwnWindowNotAdmitted : Prop :=
  ∀ (s : State) (a : Word) (n : AccessSize) (v : Word),
    (∃ b : Nat, a.toNat ≤ b ∧ b < a.toNat + AccessSize.bytes n ∧
      s.cfg.npcBase.toNat ≤ b ∧ b < s.cfg.npcBase.toNat + 64) →
    admits s.cfg a n .read = false ∧ admits s.cfg a n .write = false ∧ memRead s a n = none ∧ memWrite s a n v = none

/-- `MemAdmit` is false over the top of the address space, and for a misaligned access under `ALIGN_REQUIRED`
(20_memory.md R41, R43). -/
def Obligations.StraddlingAndMisalignedNotAdmitted : Prop :=
  ∀ (c : Config) (a : Word) (n : AccessSize) (k : AccessKind),
    (2 ^ 32 < a.toNat + AccessSize.bytes n → admits c a n k = false) ∧
    (c.alignRequired = true → a.toNat % AccessSize.bytes n ≠ 0 → admits c a n k = false)

/-- Byte order (20_memory.md R42): little-endian puts the byte at the lowest address in bits 7:0, big-endian makes it the
most significant. -/
def Obligations.ByteOrderOfReads : Prop :=
  ∀ (s : State) (a : Word),
    (admits s.cfg a .two .read = true →
      ∃ b0 b1 : Byte, b0 = Memory.byteAt s.mem a.toNat ∧ b1 = Memory.byteAt s.mem (a.toNat + 1) ∧
        memRead s a .two = some (if s.cfg.bigEndian then 0#16 ++ b0 ++ b1 else 0#16 ++ b1 ++ b0)) ∧
    (admits s.cfg a .four .read = true →
      ∃ b0 b1 b2 b3 : Byte, b0 = Memory.byteAt s.mem a.toNat ∧ b1 = Memory.byteAt s.mem (a.toNat + 1) ∧
        b2 = Memory.byteAt s.mem (a.toNat + 2) ∧ b3 = Memory.byteAt s.mem (a.toNat + 3) ∧
        memRead s a .four = some (if s.cfg.bigEndian then b0 ++ b1 ++ b2 ++ b3 else b3 ++ b2 ++ b1 ++ b0))

/-- What `MemWrite` stores, `MemRead` of the same address and width returns, in both byte orders (20_memory.md R41). -/
def Obligations.WriteThenReadReturnsValue : Prop :=
  ∀ (s : State) (a : Word) (n : AccessSize) (v : Word) (m : Memory), Memory.wf s.mem = true →
    memWrite s a n v = some m → admits s.cfg a n .read = true →
    memRead { s with mem := m } a n = some (v &&& BitVec.ofNat 32 (2 ^ (8 * AccessSize.bytes n) - 1))

/-! ### Invariants and whole-machine rules -/

/-- The invariants hold at reset: memory is in its canonical form, and the lifecycle invariant holds. -/
def Obligations.ResetMeetsInvariants : Prop :=
  Memory.wf State.reset.mem = true ∧ Lifecycle State.reset

/-- Every step keeps memory in its canonical form: addresses rising inside the space of `2^32` bytes (20_memory.md R40),
and nothing listed that an unlisted address reads as, which is the model's own form (log entry 8). -/
def Obligations.StepKeepsMemoryCanonical : Prop :=
  ∀ s t : State, Memory.wf s.mem = true → step s = .next t → Memory.wf t.mem = true

/-- Every step keeps the lifecycle: BUSY and DONE never both 1 (10_state.md R16), ERR one of 0 to 3 and 0 while BUSY
(R18), OPL and the working registers those of one command while BUSY (R25), RES `ANY_32` while BUSY and while ERR = 3
(R13), and the engine idle while reset is asserted (70_reset_and_hazards.md R220). -/
def Obligations.StepKeepsLifecycle : Prop :=
  ∀ s t : State, Lifecycle s → step s = .next t → Lifecycle t

/-- No step changes the instance's parameters (00_scope.md R5: "never changed at run time"). -/
def Obligations.StepKeepsParameters : Prop :=
  ∀ s t : State, step s = .next t → t.cfg = s.cfg

/-- Only a host write to an operand register of an idle engine, or reset, changes an operand register: no operation does
(10_state.md R12). -/
def Obligations.OnlyHostWritesOperands : Prop :=
  ∀ s t : State, step s = .next t → t.args ≠ s.args →
    (∃ i v rest, s.status.busy = false ∧ s.schedule = wrArg i v :: rest ∧ t.args = Args.set s.args i v) ∨
    (∃ rest, s.schedule = .assertReset :: rest)

/-- Only another master's store, and FEQ16, change memory (00_scope.md R8, 20_memory.md R44). -/
def Obligations.OnlyFeq16WritesMemory : Prop :=
  ∀ s t : State, step s = .next t → t.mem ≠ s.mem →
    (∃ a bytes rest, s.schedule = .store a bytes :: rest) ∨
    (∃ rest, s.schedule = wrCommand .feq16 :: rest) ∨
    (s.status.busy = true ∧ s.opl = opcodeOf .feq16)

/-- Every command answers a next state in every state: no operand value makes a command fail (60_exceptions.md R190,
R201). The one fault of a step is the host's division by zero, raised exactly when a turn of `falign` divides and the
value the host read last is 0 (R202). -/
def Obligations.EngineNeverStops : Prop :=
  (∀ (i : Instr) (s : State), ∃ t, exec i s = .next t) ∧
  (∀ (s : State) (f : Fault), step s = .fault f ↔
    f = .divisionByZero ∧ (lastRead s).1 = 0 ∧
      ((∃ ba far rest, s.schedule = .falignDivide ba far :: rest) ∨
        ∃ far num rest, s.schedule = .falignFinish far num :: rest))

/-- What a command other than FEQ16 leaves unchanged, in every state: the parameters, the operand registers, every byte
of memory, the other agents' side; OVR, but that a command written while BUSY = 1 sets it. -/
def Obligations.NonStoringCommandFrame : Prop :=
  ∀ (i : Instr) (s t : State), i ≠ .feq16 → exec i s = .next t →
    t.cfg = s.cfg ∧ t.args = s.args ∧ (∀ a, Memory.byteAt t.mem a = Memory.byteAt s.mem a) ∧
    t.resetAsserted = s.resetAsserted ∧ t.schedule = s.schedule ∧ t.seen = s.seen ∧
    t.status.ovr = (s.status.ovr || s.status.busy)

/-- What FEQ16 leaves unchanged, in every state: as the other commands, but for the bytes of the first `vec_length`
elements of the index array, at the addresses it stores indices to (45_vector.md R161, R163). -/
def Obligations.Feq16Frame : Prop :=
  ∀ s t : State, exec .feq16 s = .next t →
    t.cfg = s.cfg ∧ t.args = s.args ∧ t.resetAsserted = s.resetAsserted ∧ t.schedule = s.schedule ∧ t.seen = s.seen ∧
    t.status.ovr = (s.status.ovr || s.status.busy) ∧
    ∀ a : Word,
      (∀ c < lengthOf (feqLength s), ∀ j < AccessSize.bytes (idxSize s.cfg),
        a ≠ elemAddr (feqOut s) (idxSize s.cfg) (BitVec.ofNat 32 c) + BitVec.ofNat 32 j) →
      Memory.byteAt t.mem a.toNat = Memory.byteAt s.mem a.toNat

/-- An operation that runs undisturbed does what the engine's turns do one after the other from its acceptance
(40_command_lifecycle.md R94, 20_memory.md R56), whether nothing is scheduled or the host waits for it: the first `exec`
only accepts, since an engine turn is scheduled before the rest; the steps from there are the engine's turns. -/
def Obligations.UndisturbedRunIsEngineTurns : Prop :=
  ∀ (i : Instr) (s : State), s.status.busy = false → present s.cfg i = true → quiet s = true →
    s.resetAsserted = false →
    ∃ start u k, belongs i start = true ∧ u = State.accept i start { s with schedule := .engine :: s.schedule } ∧
      exec i { s with schedule := .engine :: s.schedule } = .next u ∧
      runSteps k { u with schedule := s.schedule } = exec i s

/-- A command that is accepted and runs undisturbed has ended, with DONE = 1, when its step has (40_command_lifecycle.md
R94, R95, R100), but for GCD under the `INT32_MIN` edge of R113. That the whole operation is one step there is the model's
choice (log entry 6). -/
def Obligations.UndisturbedCommandEnds : Prop :=
  ∀ (i : Instr) (s : State), Ready i s → ¬GcdEdge i s →
    ∃ t, exec i s = .next t ∧ Kept s t ∧ t.status.busy = false ∧ t.status.done = true ∧
      (t.status.err = 0 ∨ t.status.err = 3)

/-- Progress (40_command_lifecycle.md R100): an operation in flight ends after finitely many steps of the engine, whether
nothing is scheduled or the host waits for it, but for GCD under the `INT32_MIN` edge of R113. -/
def Obligations.OperationEnds : Prop :=
  ∀ s : State, Lifecycle s → s.status.busy = true → s.resetAsserted = false → quiet s = true →
    (∀ a b k, s.work = .gcd a b k → s.cfg.gcdMinPolicy = .unsignedMagnitude ∨ (a ≠ int32Min ∧ b ≠ int32Min)) →
    ∃ k t, runSteps k s = .next t ∧ t.schedule = s.schedule ∧ t.status.busy = false ∧ t.status.done = true

/-! ### GCD -/

/-- GCD completes with the greatest common divisor of the absolute values, for every pair of operands other than
`INT32_MIN` (41_gcd.md R111). -/
def Obligations.GcdReturnsGreatestCommonDivisor : Prop :=
  ∀ s : State, Ready .gcd s → gcdA s ≠ int32Min → gcdB s ≠ int32Min →
    ∃ t, exec .gcd s = .next t ∧ Completed s t ∧ t.mem = s.mem ∧
      Result t (BitVec.ofNat 32 (Nat.gcd (gcdA s).toInt.natAbs (gcdB s).toInt.natAbs)) ∧
      Nat.gcd (gcdA s).toInt.natAbs (gcdB s).toInt.natAbs < 2 ^ 31

/-- With `GCD_MIN_POLICY = unsigned_magnitude` GCD completes for all operands, the magnitude of `INT32_MIN` being `2^31`
(41_gcd.md R113). -/
def Obligations.GcdUnsignedMagnitude : Prop :=
  ∀ s : State, Ready .gcd s → s.cfg.gcdMinPolicy = .unsignedMagnitude →
    ∃ t, exec .gcd s = .next t ∧ Completed s t ∧ t.mem = s.mem ∧
      Result t (BitVec.ofNat 32 (Nat.gcd (gcdA s).toInt.natAbs (gcdB s).toInt.natAbs)) ∧
      Nat.gcd (gcdA s).toInt.natAbs (gcdB s).toInt.natAbs ≤ 2 ^ 31

/-- With `GCD_MIN_POLICY = refuse` and an operand equal to `INT32_MIN`, the model's reading of R113 (log entry 5): the
command completes at its step if the free choice `Config.gcdMinCompletes`, at the draw after the one acceptance takes, is
true, and is still in flight if it is false; RES is a free value either way; no fault is raised, and nothing else
changes. -/
def Obligations.GcdMinEdgeIsFree : Prop :=
  ∀ s : State, Ready .gcd s → s.cfg.gcdMinPolicy = .refuse → gcdA s = int32Min ∨ gcdB s = int32Min →
    ∃ t, exec .gcd s = .next t ∧ Kept s t ∧ t.mem = s.mem ∧ t.resOpen = true ∧
      if Config.gcdMinCompletes (s.draws + 1) = true then
        Completed s t ∧ t.res = Config.any32 (s.draws + 2)
      else
        t.status = { busy := true, done := false, err := 0, ovr := s.status.ovr } ∧ t.opl = opcodeOf .gcd ∧
          t.res = Config.any32 s.draws ∧ t.draws = s.draws + 2

/-- The laws of 41_gcd.md R115, for operands other than `INT32_MIN`: `gcd(a,b) = gcd(b,a)`; `gcd(a,b) = gcd(|a|,|b|)`;
for nonzero `a` and `b` the result divides both, and no larger number does. -/
def Obligations.GcdLaws : Prop :=
  ∀ a b : Word, a ≠ int32Min → b ≠ int32Min →
    gcdOf a b = gcdOf b a ∧ gcdOf a b = gcdOf (absWord a) (absWord b) ∧
    (a ≠ 0 → b ≠ 0 →
      a.toInt % (gcdOf a b).toInt = 0 ∧ b.toInt % (gcdOf a b).toInt = 0 ∧
      ∀ d : Nat, (d : Int) ∣ a.toInt → (d : Int) ∣ b.toInt → d ≤ (gcdOf a b).toNat)

/-! ### CRC32 -/

/-- CRC32 completes with the checksum of the `length` bytes at `data`, chained from `base`, when every read is admitted;
memory is unchanged (42_crc32.md R130, R131). The checksum is the reflected CRC-32 with polynomial 0xEDB88320 in the usual
form, which shifts the whole register eight times a byte and uses no definition of the machine. -/
def Obligations.Crc32ReturnsChecksum : Prop :=
  ∀ s : State, Ready .crc32 s → Admitted s (crcData s) .one .read (crcLength s).toNat →
    ∃ t, exec .crc32 s = .next t ∧ Completed s t ∧ t.mem = s.mem ∧
      Result t (crcOf (crcBase s) (byteArray s (crcData s) (crcLength s).toNat))

/-- The check value (42_crc32.md R134): CRC32 of the nine bytes "123456789" with `base = 0` is 0xCBF43926, wherever they
lie. -/
def Obligations.Crc32CheckValue : Prop :=
  ∀ s : State, Ready .crc32 s → crcBase s = 0 → crcLength s = 9 → Admitted s (crcData s) .one .read 9 →
    byteArray s (crcData s) 9 = [0x31, 0x32, 0x33, 0x34, 0x35, 0x36, 0x37, 0x38, 0x39] →
    ∃ t, exec .crc32 s = .next t ∧ Completed s t ∧ t.mem = s.mem ∧ Result t 0xCBF43926#32

/-- `length = 0` reads nothing and returns `base`, whatever `data` is; in particular 0 for `base = 0` (42_crc32.md
R133). -/
def Obligations.Crc32OfNothingIsBase : Prop :=
  ∀ s : State, Ready .crc32 s → crcLength s = 0 →
    ∃ t, exec .crc32 s = .next t ∧ Completed s t ∧ t.mem = s.mem ∧ Result t (crcBase s)

/-- Chaining (42_crc32.md R132): a CRC32 over the first `k` bytes, then, with RES as `base`, one over the other `n - k`
bytes, gives the result of one over all `n` bytes. -/
def Obligations.Crc32Chains : Prop :=
  ∀ (s t : State) (k n : Word), Ready .crc32 s → k ≤ n → Admitted s (crcData s) .one .read n.toNat →
    exec .crc32 { s with args := { s.args with arg2 := k } } = .next t →
    ∃ u v,
      exec .crc32 { t with args := { t.args with arg0 := t.res, arg1 := crcData s + k, arg2 := n - k } } = .next u ∧
      exec .crc32 { s with args := { s.args with arg2 := n } } = .next v ∧ u.res = v.res ∧
      u.resOpen = false ∧ v.resOpen = false ∧ u.status = v.status

/-! ### FLS and NORM -/

/-- FLS completes with the 1-based position of the most significant 1 bit, 0 for 0 (43_fls.md R141). -/
def Obligations.FlsReturnsTopBitPosition : Prop :=
  ∀ s : State, Ready .fls s →
    ∃ t, exec .fls s = .next t ∧ Completed s t ∧ t.mem = s.mem ∧ t.resOpen = false ∧ t.res.toNat ≤ 32 ∧
      (flsX s = 0 → t.res = 0) ∧ (flsX s = 1 → t.res = 1) ∧ (flsX s = 0x80000000#32 → t.res = 32) ∧
      (flsX s ≠ 0 → ∃ p : Nat, p ≤ 31 ∧ t.res.toNat = p + 1 ∧ (flsX s).getLsbD p = true ∧
        (∀ j, p < j → (flsX s).getLsbD j = false) ∧ 2 ^ p ≤ (flsX s).toNat ∧ (flsX s).toNat < 2 ^ (p + 1))

/-- The shift-left realisation of 43_fls.md R142 computes the function of R141. -/
def Obligations.FlsHalvingIsFls : Prop :=
  ∀ x : Word, flsHalving x = flsOf x

/-- NORM completes, where the unit is present, with `31 - fls(val ^ (val >>s 31))`: 31 for 0, and for other values the
largest number of left shifts that keeps the value in the int32 range (44_norm.md R151, R153). -/
def Obligations.NormReturnsShiftCount : Prop :=
  ∀ s : State, Ready .norm s →
    ∃ t, exec .norm s = .next t ∧ Completed s t ∧ t.mem = s.mem ∧ t.resOpen = false ∧
      t.res.toNat = 31 - flsOf (normVal s ^^^ (normVal s).sshiftRight 31) ∧
      (normVal s = 0 → t.res = 31) ∧
      (normVal s ≠ 0 →
        (-(2 ^ 31) ≤ (normVal s).toInt * 2 ^ t.res.toNat ∧ (normVal s).toInt * 2 ^ t.res.toNat < 2 ^ 31) ∧
        ¬(-(2 ^ 31) ≤ (normVal s).toInt * 2 ^ (t.res.toNat + 1) ∧ (normVal s).toInt * 2 ^ (t.res.toNat + 1) < 2 ^ 31))

/-! ### The vector searches -/

/-- FEQ16 completes with the indices of the elements equal to `n`, in ascending order, written to the index array, and
their number in RES; with `max_results > 0` it stops at the `max_results`-th match. The reads up to where the scan ends
and the index writes are admitted, and the index array does not overlap the elements read (45_vector.md R161, R162,
R164). -/
def Obligations.Feq16WritesMatchingIndices : Prop :=
  ∀ (s : State) (elems : List Half), Ready .feq16 s →
    elems = halfArray s (feqVec s) (lengthOf (feqLength s)) →
    Admitted s (feqVec s) .two .read (scannedOf (feqN s) (feqMax s) elems) →
    Admitted s (feqOut s) (idxSize s.cfg) .write (indicesOf (feqN s) (feqMax s) elems).length →
    Safety.Disjoint s.cfg (feqOut s) (indicesOf (feqN s) (feqMax s) elems).length (feqVec s)
      (scannedOf (feqN s) (feqMax s) elems) →
    ∃ t, exec .feq16 s = .next t ∧ Completed s t ∧
      Result t (BitVec.ofNat 32 (indicesOf (feqN s) (feqMax s) elems).length) ∧
      t.mem = storeIndices s.cfg (feqOut s) 0 (indicesOf (feqN s) (feqMax s) elems) s.mem

/-- FEQ16 with `vec_length ≤ 0` makes no access and returns 0 (45_vector.md R161 corner cases). -/
def Obligations.Feq16OfNothingReturnsZero : Prop :=
  ∀ s : State, Ready .feq16 s → (feqLength s).toInt ≤ 0 →
    ∃ t, exec .feq16 s = .next t ∧ Completed s t ∧ t.mem = s.mem ∧ Result t 0

/-- FEQ16 whose read of element `k` is refused, before any early stop, ends with BUS_FAULT; the index elements written
before it stay written (45_vector.md R161, 60_exceptions.md R194). -/
def Obligations.Feq16ReadFaultKeepsEarlierWrites : Prop :=
  ∀ (s : State) (k : Nat) (elems : List Half), Ready .feq16 s → k < lengthOf (feqLength s) →
    elems = halfArray s (feqVec s) k → stopsEarly (feqN s) (feqMax s) elems = false →
    Admitted s (feqVec s) .two .read k →
    admits s.cfg (elemAddr (feqVec s) .two (BitVec.ofNat 32 k)) .two .read = false →
    Admitted s (feqOut s) (idxSize s.cfg) .write (matchesOf (feqN s) elems).length →
    Safety.Disjoint s.cfg (feqOut s) (matchesOf (feqN s) elems).length (feqVec s) k →
    ∃ t, exec .feq16 s = .next t ∧ BusFaulted s t ∧
      t.mem = storeIndices s.cfg (feqOut s) 0 (matchesOf (feqN s) elems) s.mem

/-- FEQ16 whose index write for the match at element `k` is refused, before any early stop, ends with BUS_FAULT; the
refused write stores nothing, and the index elements written before it stay written (20_memory.md R41, 60_exceptions.md
R194). -/
def Obligations.Feq16WriteFaultStoresNothing : Prop :=
  ∀ (s : State) (k : Nat) (elems : List Half), Ready .feq16 s → k < lengthOf (feqLength s) →
    elems = halfArray s (feqVec s) k → stopsEarly (feqN s) (feqMax s) elems = false →
    Admitted s (feqVec s) .two .read (k + 1) → (elemValue s (feqVec s) .two k).setWidth 16 = feqN s →
    Admitted s (feqOut s) (idxSize s.cfg) .write (matchesOf (feqN s) elems).length →
    admits s.cfg (elemAddr (feqOut s) (idxSize s.cfg) (BitVec.ofNat 32 (matchesOf (feqN s) elems).length))
      (idxSize s.cfg) .write = false →
    Safety.Disjoint s.cfg (feqOut s) (matchesOf (feqN s) elems).length (feqVec s) (k + 1) →
    ∃ t, exec .feq16 s = .next t ∧ BusFaulted s t ∧
      t.mem = storeIndices s.cfg (feqOut s) 0 (matchesOf (feqN s) elems) s.mem

/-- FMIN16 completes, for a non-empty array whose reads are admitted, with its signed minimum, sign-extended
(45_vector.md R165). -/
def Obligations.Fmin16ReturnsMinimum : Prop :=
  ∀ s : State, Ready .fmin16 s → 1 ≤ (scanLength s).toInt →
    Admitted s (scanVec s) .two .read (lengthOf (scanLength s)) →
    ∃ t, exec .fmin16 s = .next t ∧ Completed s t ∧ t.mem = s.mem ∧
      ∃ m : Half, Result t (m.signExtend 32) ∧ m ∈ halfArray s (scanVec s) (lengthOf (scanLength s)) ∧
        ∀ e ∈ halfArray s (scanVec s) (lengthOf (scanLength s)), m.toInt ≤ e.toInt

/-- FMIN16 with `vec_length ≤ 0` reads element 0: BUS_FAULT where that is not admitted; else it completes, and RES is a
free value (45_vector.md R166). -/
def Obligations.Fmin16OfNothingIsFree : Prop :=
  ∀ s : State, Ready .fmin16 s → (scanLength s).toInt ≤ 0 →
    (admits s.cfg (scanVec s) .two .read = true →
      ∃ t d, exec .fmin16 s = .next t ∧ Completed s t ∧ t.mem = s.mem ∧ t.res = Config.any32 d ∧ t.resOpen = true) ∧
    (admits s.cfg (scanVec s) .two .read = false →
      ∃ t, exec .fmin16 s = .next t ∧ BusFaulted s t ∧ t.mem = s.mem)

/-- FMAXA32 completes, for a non-empty array whose reads are admitted, with the largest absolute value, saturated to
`INT32_MAX` (45_vector.md R167, R168). -/
def Obligations.Fmaxa32ReturnsSaturatedMaximum : Prop :=
  ∀ s : State, Ready .fmaxa32 s → 1 ≤ (scanLength s).toInt →
    Admitted s (scanVec s) .four .read (lengthOf (scanLength s)) →
    ∃ t, exec .fmaxa32 s = .next t ∧ Completed s t ∧ t.mem = s.mem ∧ t.resOpen = false ∧
      (∃ e ∈ wordArray s (scanVec s) (lengthOf (scanLength s)), t.res.toNat = min e.toInt.natAbs (2 ^ 31 - 1)) ∧
      ∀ e ∈ wordArray s (scanVec s) (lengthOf (scanLength s)), min e.toInt.natAbs (2 ^ 31 - 1) ≤ t.res.toNat

/-- FMAXA32 with `vec_length ≤ 0` reads element 0: BUS_FAULT where that is not admitted; else it completes, and RES is a
free value (45_vector.md R169). -/
def Obligations.Fmaxa32OfNothingIsFree : Prop :=
  ∀ s : State, Ready .fmaxa32 s → (scanLength s).toInt ≤ 0 →
    (admits s.cfg (scanVec s) .four .read = true →
      ∃ t d, exec .fmaxa32 s = .next t ∧ Completed s t ∧ t.mem = s.mem ∧ t.res = Config.any32 d ∧ t.resOpen = true) ∧
    (admits s.cfg (scanVec s) .four .read = false →
      ∃ t, exec .fmaxa32 s = .next t ∧ BusFaulted s t ∧ t.mem = s.mem)

/-- A scan that reads only (CRC32, FMIN16, FMAXA32) ends with BUS_FAULT at the first element whose read is refused, and
memory is unchanged (60_exceptions.md R194). -/
def Obligations.RefusedReadEndsScan : Prop :=
  (∀ (s : State) (k : Nat), Ready .crc32 s → k < (crcLength s).toNat → Admitted s (crcData s) .one .read k →
    admits s.cfg (elemAddr (crcData s) .one (BitVec.ofNat 32 k)) .one .read = false →
    ∃ t, exec .crc32 s = .next t ∧ BusFaulted s t ∧ t.mem = s.mem) ∧
  (∀ (s : State) (k : Nat), Ready .fmin16 s → k < max 1 (lengthOf (scanLength s)) →
    Admitted s (scanVec s) .two .read k →
    admits s.cfg (elemAddr (scanVec s) .two (BitVec.ofNat 32 k)) .two .read = false →
    ∃ t, exec .fmin16 s = .next t ∧ BusFaulted s t ∧ t.mem = s.mem) ∧
  (∀ (s : State) (k : Nat), Ready .fmaxa32 s → k < max 1 (lengthOf (scanLength s)) →
    Admitted s (scanVec s) .four .read k →
    admits s.cfg (elemAddr (scanVec s) .four (BitVec.ofNat 32 k)) .four .read = false →
    ∃ t, exec .fmaxa32 s = .next t ∧ BusFaulted s t ∧ t.mem = s.mem)

/-! ### The host sequence falign -/

/-- `falign` on an idle engine, with arguments that are not zero and at most `INT32_MAX` and a product below `2^32`,
leaves the host holding `frame_align_req × frame_num / gcd(frame_num, frame_align_req)` with `frame_num = byte_align /
gcd(byte_align, frame_size)`, the least common multiple of `frame_num` and `frame_align_req` (41_gcd.md R117, R118), and
the host goes on with what it does next. It takes 13 turns of the host: the beginning, two `call GCD` of five, two
divisions. -/
def Obligations.FalignReturnsLeastCommonMultiple : Prop :=
  ∀ (s : State) (ba far fs : Word) (rest : List Turn) (num : Nat), s.status.busy = false → s.resetAsserted = false →
    s.schedule = .falign ba far fs :: rest →
    0 < ba.toInt → 0 < far.toInt → 0 < fs.toInt → num = ba.toNat / Nat.gcd ba.toNat fs.toNat →
    far.toNat * num < 2 ^ 32 →
    ∃ t r, runSteps 13 s = .next t ∧ t.seen.head? = some r ∧ t.schedule = rest ∧
      r.toNat = far.toNat * num / Nat.gcd num far.toNat ∧ r.toNat = Nat.lcm num far.toNat ∧ t.mem = s.mem ∧
      t.status = { busy := false, done := true, err := 0, ovr := s.status.ovr } ∧ t.cfg = s.cfg

/-- `falign` on an idle engine raises the host's one fault, division by zero, when `byte_align = 0` and one of
`frame_size`, `frame_align_req` is 0 (41_gcd.md R118, 60_exceptions.md R202), and is refused when the product does not fit
32 bits (R118 b). -/
def Obligations.FalignFaultsOnZeroDivisor : Prop :=
  (∀ (s : State) (far fs : Word) (rest : List Turn), s.status.busy = false → s.resetAsserted = false →
    s.schedule = .falign 0 far fs :: rest → 0 ≤ far.toInt → 0 ≤ fs.toInt →
    fs = 0 ∨ far = 0 → runSteps 13 s = .fault .divisionByZero) ∧
  (∀ (s : State) (ba far fs : Word) (rest : List Turn), s.status.busy = false → s.resetAsserted = false →
    s.schedule = .falign ba far fs :: rest → 0 < ba.toInt → 0 < far.toInt → 0 < fs.toInt →
    2 ^ 32 ≤ far.toNat * (ba.toNat / Nat.gcd ba.toNat fs.toNat) →
    runSteps 13 s = .refused .falignOverflow)
end

