-- ==== Sys2Proof/Laws/Decode.lean ====
section
/-! SUPPORT. The fields of a command word, the opcode map and its inverse. -/

namespace Sys2Proof

/-- Each bit of a packed command word (30_encoding.md R71). -/
theorem wordOf_getLsbD (c : CommandWord) (i : Nat) :
    (wordOf c).getLsbD i = if i < 4 then c.opc.getLsbD i else c.rsv.getLsbD (i - 4) :=
  BitVec.getLsbD_append (x := c.rsv) (y := c.opc) (i := i)

/-- Packing and unpacking the fields loses no bit (R71). -/
@[simp] theorem fieldsOf_wordOf (c : CommandWord) : fieldsOf (wordOf c) = c := by
  obtain ⟨r, o⟩ := c
  simp only [fieldsOf, CommandWord.mk.injEq]
  constructor
  · ext i hi
    simp [wordOf_getLsbD, BitVec.getLsbD_eq_getElem, hi]
  · ext i hi
    simp [wordOf_getLsbD, BitVec.getLsbD_eq_getElem, hi]

@[simp] theorem wordOf_fieldsOf (w : Word) : wordOf (fieldsOf w) = w := by
  apply BitVec.eq_of_getLsbD_eq
  intro i hi
  rw [wordOf_getLsbD]
  split
  · simp [fieldsOf, *]
  · have h4 : 4 + (i - 4) = i := by omega
    have h28 : i - 4 < 28 := by omega
    simp [fieldsOf, h4, h28]

/-- The opcode map reads an opcode as the command it is the opcode of, and nothing else (R72). -/
theorem instrOfOpcode_eq_some_iff (o : BitVec 4) (i : Instr) : instrOfOpcode o = some i ↔ o = opcodeOf i := by
  cases i <;> revert o <;> decide

@[simp] theorem instrOfOpcode_opcodeOf (i : Instr) : instrOfOpcode (opcodeOf i) = some i :=
  (instrOfOpcode_eq_some_iff _ _).2 rfl

theorem opcodeOf_injective {i j : Instr} (h : opcodeOf i = opcodeOf j) : i = j := by
  cases i <;> cases j <;> first | rfl | exact absurd h (by decide)

/-- What the decoder can do. -/
theorem decode_cases (w : Word) :
    ((fieldsOf w).rsv ≠ 0 ∧ decode w = .error .reservedBits) ∨
    (∃ i, (fieldsOf w).rsv = 0 ∧ (fieldsOf w).opc = opcodeOf i ∧ decode w = .ok i) ∨
    ((fieldsOf w).rsv = 0 ∧ instrOfOpcode (fieldsOf w).opc = none ∧ decode w = .error .reservedOpcode) := by
  unfold decode
  split
  · exact .inl ⟨‹_›, rfl⟩
  · have h0 : (fieldsOf w).rsv = 0 := not_not.1 ‹_›
    split
    · exact .inr (.inl ⟨_, h0, (instrOfOpcode_eq_some_iff _ _).1 ‹_›, rfl⟩)
    · exact .inr (.inr ⟨h0, ‹_›, rfl⟩)

end Sys2Proof
end

