-- ==== Sys2Proof/Laws/Memory.lean ====
section
/-! SUPPORT. Memory: reading after writing, and the canonical form, which every memory operation keeps. -/

namespace Sys2Proof.Machine

/-! ### One byte -/

theorem Memory.byteAt_cons_same (m : Memory) (a : Nat) (v : Byte) (h : Memory.byteAt m a = Memory.unlisted) :
    Memory.byteAt (Memory.cons a v m) a = v := by
  unfold Memory.cons
  split
  · rw [h]; exact Eq.symm ‹_›
  · simp [Memory.byteAt]

theorem Memory.byteAt_cons_other (m : Memory) (a b : Nat) (v : Byte) (h : b ≠ a) :
    Memory.byteAt (Memory.cons a v m) b = Memory.byteAt m b := by
  unfold Memory.cons
  split <;> simp [Memory.byteAt, h]

/-- Nothing below the first address of a canonical memory is listed. -/
theorem Memory.byteAt_below {m : Memory} {lo a : Nat} (hm : Memory.wfFrom lo m = true) (h : a < lo) :
    Memory.byteAt m a = Memory.unlisted := by
  induction m generalizing lo with
  | nil => rfl
  | cons c rest ih =>
    simp only [Memory.wfFrom, Bool.and_eq_true, decide_eq_true_eq] at hm
    have hne : a ≠ c.1 := by omega
    simp only [Memory.byteAt, hne, if_false]
    exact ih hm.2 (by omega)

/-- The bound of a canonical form may be lowered. -/
theorem Memory.wfFrom_mono {m : Memory} {lo lo' : Nat} (hm : Memory.wfFrom lo m = true) (h : lo' ≤ lo) :
    Memory.wfFrom lo' m = true := by
  cases m with
  | nil => rfl
  | cons c rest =>
    simp only [Memory.wfFrom, Bool.and_eq_true, decide_eq_true_eq] at hm ⊢
    exact ⟨⟨⟨by omega, hm.1.1.2⟩, hm.1.2⟩, hm.2⟩

theorem Memory.cons_wfFrom {m : Memory} {lo a : Nat} {v : Byte} (hm : Memory.wfFrom (a + 1) m = true) (hlo : lo ≤ a)
    (ha : a < 2 ^ 32) : Memory.wfFrom lo (Memory.cons a v m) = true := by
  unfold Memory.cons
  split
  · exact Memory.wfFrom_mono hm (by omega)
  · simp only [Memory.wfFrom, Bool.and_eq_true, decide_eq_true_eq]
    exact ⟨⟨⟨hlo, ha⟩, ‹_›⟩, hm⟩

/-- Writing a byte keeps the canonical form, from any bound at or below the address. -/
theorem Memory.setByte_wfFrom {m : Memory} {lo a : Nat} {v : Byte} (hm : Memory.wfFrom lo m = true) (hlo : lo ≤ a)
    (ha : a < 2 ^ 32) : Memory.wfFrom lo (Memory.setByte m a v) = true := by
  induction m generalizing lo with
  | nil => exact Memory.cons_wfFrom rfl hlo ha
  | cons c rest ih =>
    obtain ⟨b, w⟩ := c
    have hc := hm
    simp only [Memory.wfFrom, Bool.and_eq_true, decide_eq_true_eq] at hm
    obtain ⟨⟨⟨h1, h2⟩, h3⟩, h4⟩ := hm
    simp only [Memory.setByte]
    split
    · refine Memory.cons_wfFrom ?_ hlo ha
      simp only [Memory.wfFrom, Bool.and_eq_true, decide_eq_true_eq]
      exact ⟨⟨⟨by omega, h2⟩, h3⟩, h4⟩
    · split
      · subst b; exact Memory.cons_wfFrom h4 hlo ha
      · simp only [Memory.wfFrom, Bool.and_eq_true, decide_eq_true_eq]
        exact ⟨⟨⟨h1, h2⟩, h3⟩, ih h4 (by omega)⟩

/-- A written byte reads back. -/
theorem Memory.byteAt_setByte_same {m : Memory} {a : Nat} {v : Byte} (hm : Memory.wf m = true) :
    Memory.byteAt (Memory.setByte m a v) a = v := by
  unfold Memory.wf at hm
  revert hm
  generalize 0 = lo
  intro hm
  induction m generalizing lo with
  | nil => exact Memory.byteAt_cons_same [] a v rfl
  | cons c rest ih =>
    obtain ⟨b, w⟩ := c
    have hc := hm
    simp only [Memory.wfFrom, Bool.and_eq_true, decide_eq_true_eq] at hm
    simp only [Memory.setByte]
    split
    · refine Memory.byteAt_cons_same _ a v ?_
      have hne : a ≠ b := by omega
      simp only [Memory.byteAt, hne, if_false]
      exact Memory.byteAt_below hm.2 (by omega)
    · split
      · exact Memory.byteAt_cons_same _ a v (Memory.byteAt_below hm.2 (by omega))
      · simp only [Memory.byteAt]
        rw [if_neg ‹_›]
        exact ih _ hm.2

/-- A write leaves every other byte alone. -/
theorem Memory.byteAt_setByte_other (m : Memory) (a b : Nat) (v : Byte) (h : b ≠ a) :
    Memory.byteAt (Memory.setByte m a v) b = Memory.byteAt m b := by
  induction m with
  | nil => exact Memory.byteAt_cons_other [] a b v h
  | cons c rest ih =>
    obtain ⟨d, w⟩ := c
    simp only [Memory.setByte]
    split
    · exact Memory.byteAt_cons_other _ a b v h
    · split
      · subst d; rw [Memory.byteAt_cons_other _ _ _ _ h]; simp [Memory.byteAt, h]
      · simp only [Memory.byteAt]; split
        · rfl
        · exact ih

/-! ### Several bytes -/

/-- Storing keeps the canonical form. -/
theorem Memory.store_wf {m : Memory} {a : Word} {bytes : List Byte} (hm : Memory.wf m = true) :
    Memory.wf (Memory.store m a bytes) = true := by
  induction bytes generalizing m a with
  | nil => exact hm
  | cons b rest ih => exact ih (Memory.setByte_wfFrom hm (Nat.zero_le _) a.isLt)

/-- Storing leaves every byte outside the stored ones alone. -/
theorem Memory.byteAt_store_outside (m : Memory) (a : Word) (bytes : List Byte) (b : Word)
    (h : ∀ j < bytes.length, b ≠ a + BitVec.ofNat 32 j) :
    Memory.byteAt (Memory.store m a bytes) b.toNat = Memory.byteAt m b.toNat := by
  induction bytes generalizing m a with
  | nil => rfl
  | cons v rest ih =>
    have h0 : b ≠ a := by simpa using h 0 (by simp)
    rw [Memory.store, ih, Memory.byteAt_setByte_other]
    · exact fun e => h0 (BitVec.eq_of_toNat_eq e)
    · intro j hj
      have := h (j + 1) (by simpa using hj)
      rwa [BitVec.ofNat_add, BitVec.add_comm (BitVec.ofNat 32 j), ← BitVec.add_assoc] at this

theorem Memory.load_length (m : Memory) (a : Word) (n : Nat) : (Memory.load m a n).length = n := by
  induction n generalizing a with
  | zero => rfl
  | succ n ih => simp [Memory.load, ih]

/-- A load sees only the bytes it names. -/
theorem Memory.load_congr {m m' : Memory} {a : Word} {n : Nat}
    (h : ∀ j < n, Memory.byteAt m (a + BitVec.ofNat 32 j).toNat = Memory.byteAt m' (a + BitVec.ofNat 32 j).toNat) :
    Memory.load m a n = Memory.load m' a n := by
  induction n generalizing a with
  | zero => rfl
  | succ n ih =>
    have h0 := h 0 (Nat.succ_pos n)
    simp only [BitVec.add_zero] at h0
    simp only [Memory.load, h0]
    congr 1
    refine ih fun j hj => ?_
    have := h (j + 1) (by omega)
    rwa [BitVec.ofNat_add, BitVec.add_comm (BitVec.ofNat 32 j), ← BitVec.add_assoc] at this

/-! ### The primitives -/

theorem splitBytes_length (n : Nat) (v : Word) : (splitBytes n v).length = n := by
  induction n generalizing v with
  | zero => rfl
  | succ n ih => simp [splitBytes, ih]

theorem inByteOrder_length (c : Config) (bytes : List Byte) : (inByteOrder c bytes).length = bytes.length := by
  unfold inByteOrder
  split <;> simp

/-- What `MemRead` can do: answer the value of the bytes where it is admitted, or raise BusFault. -/
theorem memRead_cases (s : State) (a : Word) (n : AccessSize) :
    (admits s.cfg a n .read = true ∧
      memRead s a n = some (assemble (inByteOrder s.cfg (Memory.load s.mem a (AccessSize.bytes n))))) ∨
    (admits s.cfg a n .read = false ∧ memRead s a n = none) := by
  unfold memRead
  cases admits s.cfg a n .read <;> simp

/-- What `MemWrite` can do: store the bytes where it is admitted, or raise BusFault. -/
theorem memWrite_cases (s : State) (a : Word) (n : AccessSize) (v : Word) :
    (admits s.cfg a n .write = true ∧
      memWrite s a n v = some (Memory.store s.mem a (inByteOrder s.cfg (splitBytes (AccessSize.bytes n) v)))) ∨
    (admits s.cfg a n .write = false ∧ memWrite s a n v = none) := by
  unfold memWrite
  cases admits s.cfg a n .write <;> simp

/-- `MemWrite` keeps the canonical form. -/
theorem memWrite_wf {s : State} {a : Word} {n : AccessSize} {v : Word} {m : Memory} (h : memWrite s a n v = some m)
    (hm : Memory.wf s.mem = true) : Memory.wf m = true := by
  obtain ⟨-, e⟩ | ⟨-, e⟩ := memWrite_cases s a n v
  · rw [e] at h; cases h; exact Memory.store_wf hm
  · rw [e] at h; cases h

/-- `MemWrite` leaves every byte outside its `n` bytes alone. -/
theorem memWrite_outside {s : State} {a : Word} {n : AccessSize} {v : Word} {m : Memory} (h : memWrite s a n v = some m)
    (b : Word) (hb : ∀ j < AccessSize.bytes n, b ≠ a + BitVec.ofNat 32 j) :
    Memory.byteAt m b.toNat = Memory.byteAt s.mem b.toNat := by
  obtain ⟨-, e⟩ | ⟨-, e⟩ := memWrite_cases s a n v
  · rw [e] at h; cases h
    exact Memory.byteAt_store_outside _ _ _ _ (by simpa [inByteOrder_length, splitBytes_length] using hb)
  · rw [e] at h; cases h

end Sys2Proof.Machine
end

