-- ==== Sys2Proof/Laws/PerInstr.lean ====
section
/-! SUPPORT. Statements about every command as syntax: its command word is well formed, decodes to it, and its OPC is
the opcode 30_encoding.md R72 gives it. -/

namespace Sys2Proof.Laws.Encoding

/-- The word of a command has RSV zero and a legal OPC (R71, R72), and decodes to the command. -/
def Statement (i : Instr) : Prop :=
  (fieldsOf (encode i)).wf = true ∧ decode (encode i) = .ok i ∧ decodeTableWord 32 (encode i).toNat = some i

theorem gcd : Statement .gcd := ⟨by decide, by decide, by decide⟩
theorem crc32 : Statement .crc32 := ⟨by decide, by decide, by decide⟩
theorem fls : Statement .fls := ⟨by decide, by decide, by decide⟩
theorem norm : Statement .norm := ⟨by decide, by decide, by decide⟩
theorem feq16 : Statement .feq16 := ⟨by decide, by decide, by decide⟩
theorem fmin16 : Statement .fmin16 := ⟨by decide, by decide, by decide⟩
theorem fmaxa32 : Statement .fmaxa32 := ⟨by decide, by decide, by decide⟩

end Sys2Proof.Laws.Encoding
end

