-- ==== Sys2Proof/Laws/State.lean ====
section
/-! SUPPORT. The fields of each named update of the state, one lemma a field, so that no proof unfolds an update. -/

namespace Sys2Proof.Machine

/-! ### State.overrun -/

@[simp] theorem State.overrun_cfg (s : State) : (s.overrun).cfg = s.cfg := rfl
@[simp] theorem State.overrun_args (s : State) : (s.overrun).args = s.args := rfl
@[simp] theorem State.overrun_res (s : State) : (s.overrun).res = s.res := rfl
@[simp] theorem State.overrun_resOpen (s : State) : (s.overrun).resOpen = s.resOpen := rfl
@[simp] theorem State.overrun_status (s : State) : (s.overrun).status = s.status.overrun := rfl
@[simp] theorem State.overrun_opl (s : State) : (s.overrun).opl = s.opl := rfl
@[simp] theorem State.overrun_work (s : State) : (s.overrun).work = s.work := rfl
@[simp] theorem State.overrun_mem (s : State) : (s.overrun).mem = s.mem := rfl
@[simp] theorem State.overrun_resetAsserted (s : State) : (s.overrun).resetAsserted = s.resetAsserted := rfl
@[simp] theorem State.overrun_schedule (s : State) : (s.overrun).schedule = s.schedule := rfl
@[simp] theorem State.overrun_seen (s : State) : (s.overrun).seen = s.seen := rfl
@[simp] theorem State.overrun_draws (s : State) : (s.overrun).draws = s.draws := rfl

/-! ### State.anyRes -/

@[simp] theorem State.anyRes_cfg (s : State) : (s.anyRes).cfg = s.cfg := rfl
@[simp] theorem State.anyRes_args (s : State) : (s.anyRes).args = s.args := rfl
@[simp] theorem State.anyRes_res (s : State) : (s.anyRes).res = Config.any32 s.draws := rfl
@[simp] theorem State.anyRes_resOpen (s : State) : (s.anyRes).resOpen = true := rfl
@[simp] theorem State.anyRes_status (s : State) : (s.anyRes).status = s.status := rfl
@[simp] theorem State.anyRes_opl (s : State) : (s.anyRes).opl = s.opl := rfl
@[simp] theorem State.anyRes_work (s : State) : (s.anyRes).work = s.work := rfl
@[simp] theorem State.anyRes_mem (s : State) : (s.anyRes).mem = s.mem := rfl
@[simp] theorem State.anyRes_resetAsserted (s : State) : (s.anyRes).resetAsserted = s.resetAsserted := rfl
@[simp] theorem State.anyRes_schedule (s : State) : (s.anyRes).schedule = s.schedule := rfl
@[simp] theorem State.anyRes_seen (s : State) : (s.anyRes).seen = s.seen := rfl
@[simp] theorem State.anyRes_draws (s : State) : (s.anyRes).draws = s.draws + 1 := rfl

/-! ### State.accept -/

@[simp] theorem State.accept_cfg (i : Instr) (w : Work) (s : State) : (State.accept i w s).cfg = s.cfg := rfl
@[simp] theorem State.accept_args (i : Instr) (w : Work) (s : State) : (State.accept i w s).args = s.args := rfl
@[simp] theorem State.accept_res (i : Instr) (w : Work) (s : State) : (State.accept i w s).res = Config.any32 s.draws := rfl
@[simp] theorem State.accept_resOpen (i : Instr) (w : Work) (s : State) : (State.accept i w s).resOpen = true := rfl
@[simp] theorem State.accept_status (i : Instr) (w : Work) (s : State) : (State.accept i w s).status = s.status.accepted := rfl
@[simp] theorem State.accept_opl (i : Instr) (w : Work) (s : State) : (State.accept i w s).opl = opcodeOf i := rfl
@[simp] theorem State.accept_work (i : Instr) (w : Work) (s : State) : (State.accept i w s).work = w := rfl
@[simp] theorem State.accept_mem (i : Instr) (w : Work) (s : State) : (State.accept i w s).mem = s.mem := rfl
@[simp] theorem State.accept_resetAsserted (i : Instr) (w : Work) (s : State) : (State.accept i w s).resetAsserted = s.resetAsserted := rfl
@[simp] theorem State.accept_schedule (i : Instr) (w : Work) (s : State) : (State.accept i w s).schedule = s.schedule := rfl
@[simp] theorem State.accept_seen (i : Instr) (w : Work) (s : State) : (State.accept i w s).seen = s.seen := rfl
@[simp] theorem State.accept_draws (i : Instr) (w : Work) (s : State) : (State.accept i w s).draws = s.draws + 1 := rfl

/-! ### State.retire -/

@[simp] theorem State.retire_cfg (code : BitVec 3) (s : State) : (State.retire code s).cfg = s.cfg := rfl
@[simp] theorem State.retire_args (code : BitVec 3) (s : State) : (State.retire code s).args = s.args := rfl
@[simp] theorem State.retire_res (code : BitVec 3) (s : State) : (State.retire code s).res = s.res := rfl
@[simp] theorem State.retire_resOpen (code : BitVec 3) (s : State) : (State.retire code s).resOpen = s.resOpen := rfl
@[simp] theorem State.retire_status (code : BitVec 3) (s : State) : (State.retire code s).status = s.status.finished code := rfl
@[simp] theorem State.retire_opl (code : BitVec 3) (s : State) : (State.retire code s).opl = 0 := rfl
@[simp] theorem State.retire_work (code : BitVec 3) (s : State) : (State.retire code s).work = .dead := rfl
@[simp] theorem State.retire_mem (code : BitVec 3) (s : State) : (State.retire code s).mem = s.mem := rfl
@[simp] theorem State.retire_resetAsserted (code : BitVec 3) (s : State) : (State.retire code s).resetAsserted = s.resetAsserted := rfl
@[simp] theorem State.retire_schedule (code : BitVec 3) (s : State) : (State.retire code s).schedule = s.schedule := rfl
@[simp] theorem State.retire_seen (code : BitVec 3) (s : State) : (State.retire code s).seen = s.seen := rfl
@[simp] theorem State.retire_draws (code : BitVec 3) (s : State) : (State.retire code s).draws = s.draws := rfl

/-! ### State.complete -/

@[simp] theorem State.complete_cfg (r : Word) (s : State) : (State.complete r s).cfg = s.cfg := rfl
@[simp] theorem State.complete_args (r : Word) (s : State) : (State.complete r s).args = s.args := rfl
@[simp] theorem State.complete_res (r : Word) (s : State) : (State.complete r s).res = r := rfl
@[simp] theorem State.complete_resOpen (r : Word) (s : State) : (State.complete r s).resOpen = false := rfl
@[simp] theorem State.complete_status (r : Word) (s : State) : (State.complete r s).status = s.status.finished 0 := rfl
@[simp] theorem State.complete_opl (r : Word) (s : State) : (State.complete r s).opl = 0 := rfl
@[simp] theorem State.complete_work (r : Word) (s : State) : (State.complete r s).work = .dead := rfl
@[simp] theorem State.complete_mem (r : Word) (s : State) : (State.complete r s).mem = s.mem := rfl
@[simp] theorem State.complete_resetAsserted (r : Word) (s : State) : (State.complete r s).resetAsserted = s.resetAsserted := rfl
@[simp] theorem State.complete_schedule (r : Word) (s : State) : (State.complete r s).schedule = s.schedule := rfl
@[simp] theorem State.complete_seen (r : Word) (s : State) : (State.complete r s).seen = s.seen := rfl
@[simp] theorem State.complete_draws (r : Word) (s : State) : (State.complete r s).draws = s.draws := rfl

/-! ### State.completeAny -/

@[simp] theorem State.completeAny_cfg (s : State) : (s.completeAny).cfg = s.cfg := rfl
@[simp] theorem State.completeAny_args (s : State) : (s.completeAny).args = s.args := rfl
@[simp] theorem State.completeAny_res (s : State) : (s.completeAny).res = Config.any32 s.draws := rfl
@[simp] theorem State.completeAny_resOpen (s : State) : (s.completeAny).resOpen = true := rfl
@[simp] theorem State.completeAny_status (s : State) : (s.completeAny).status = s.status.finished 0 := rfl
@[simp] theorem State.completeAny_opl (s : State) : (s.completeAny).opl = 0 := rfl
@[simp] theorem State.completeAny_work (s : State) : (s.completeAny).work = .dead := rfl
@[simp] theorem State.completeAny_mem (s : State) : (s.completeAny).mem = s.mem := rfl
@[simp] theorem State.completeAny_resetAsserted (s : State) : (s.completeAny).resetAsserted = s.resetAsserted := rfl
@[simp] theorem State.completeAny_schedule (s : State) : (s.completeAny).schedule = s.schedule := rfl
@[simp] theorem State.completeAny_seen (s : State) : (s.completeAny).seen = s.seen := rfl
@[simp] theorem State.completeAny_draws (s : State) : (s.completeAny).draws = s.draws + 1 := rfl

/-! ### State.raise_illegalCmd -/

@[simp] theorem State.raise_illegalCmd_cfg (s : State) : (State.raise .illegalCmd s).cfg = s.cfg := rfl
@[simp] theorem State.raise_illegalCmd_args (s : State) : (State.raise .illegalCmd s).args = s.args := rfl
@[simp] theorem State.raise_illegalCmd_res (s : State) : (State.raise .illegalCmd s).res = s.res := rfl
@[simp] theorem State.raise_illegalCmd_resOpen (s : State) : (State.raise .illegalCmd s).resOpen = s.resOpen := rfl
@[simp] theorem State.raise_illegalCmd_status (s : State) : (State.raise .illegalCmd s).status = s.status.rejected 1 := rfl
@[simp] theorem State.raise_illegalCmd_opl (s : State) : (State.raise .illegalCmd s).opl = s.opl := rfl
@[simp] theorem State.raise_illegalCmd_work (s : State) : (State.raise .illegalCmd s).work = s.work := rfl
@[simp] theorem State.raise_illegalCmd_mem (s : State) : (State.raise .illegalCmd s).mem = s.mem := rfl
@[simp] theorem State.raise_illegalCmd_resetAsserted (s : State) : (State.raise .illegalCmd s).resetAsserted = s.resetAsserted := rfl
@[simp] theorem State.raise_illegalCmd_schedule (s : State) : (State.raise .illegalCmd s).schedule = s.schedule := rfl
@[simp] theorem State.raise_illegalCmd_seen (s : State) : (State.raise .illegalCmd s).seen = s.seen := rfl
@[simp] theorem State.raise_illegalCmd_draws (s : State) : (State.raise .illegalCmd s).draws = s.draws := rfl

/-! ### State.raise_unitAbsent -/

@[simp] theorem State.raise_unitAbsent_cfg (s : State) : (State.raise .unitAbsent s).cfg = s.cfg := rfl
@[simp] theorem State.raise_unitAbsent_args (s : State) : (State.raise .unitAbsent s).args = s.args := rfl
@[simp] theorem State.raise_unitAbsent_res (s : State) : (State.raise .unitAbsent s).res = s.res := rfl
@[simp] theorem State.raise_unitAbsent_resOpen (s : State) : (State.raise .unitAbsent s).resOpen = s.resOpen := rfl
@[simp] theorem State.raise_unitAbsent_status (s : State) : (State.raise .unitAbsent s).status = s.status.rejected 2 := rfl
@[simp] theorem State.raise_unitAbsent_opl (s : State) : (State.raise .unitAbsent s).opl = s.opl := rfl
@[simp] theorem State.raise_unitAbsent_work (s : State) : (State.raise .unitAbsent s).work = s.work := rfl
@[simp] theorem State.raise_unitAbsent_mem (s : State) : (State.raise .unitAbsent s).mem = s.mem := rfl
@[simp] theorem State.raise_unitAbsent_resetAsserted (s : State) : (State.raise .unitAbsent s).resetAsserted = s.resetAsserted := rfl
@[simp] theorem State.raise_unitAbsent_schedule (s : State) : (State.raise .unitAbsent s).schedule = s.schedule := rfl
@[simp] theorem State.raise_unitAbsent_seen (s : State) : (State.raise .unitAbsent s).seen = s.seen := rfl
@[simp] theorem State.raise_unitAbsent_draws (s : State) : (State.raise .unitAbsent s).draws = s.draws := rfl

/-! ### State.raise_busFault -/

@[simp] theorem State.raise_busFault_cfg (s : State) : (State.raise .busFault s).cfg = s.cfg := rfl
@[simp] theorem State.raise_busFault_args (s : State) : (State.raise .busFault s).args = s.args := rfl
@[simp] theorem State.raise_busFault_res (s : State) : (State.raise .busFault s).res = Config.any32 s.draws := rfl
@[simp] theorem State.raise_busFault_resOpen (s : State) : (State.raise .busFault s).resOpen = true := rfl
@[simp] theorem State.raise_busFault_status (s : State) : (State.raise .busFault s).status = s.status.finished 3 := rfl
@[simp] theorem State.raise_busFault_opl (s : State) : (State.raise .busFault s).opl = 0 := rfl
@[simp] theorem State.raise_busFault_work (s : State) : (State.raise .busFault s).work = .dead := rfl
@[simp] theorem State.raise_busFault_mem (s : State) : (State.raise .busFault s).mem = s.mem := rfl
@[simp] theorem State.raise_busFault_resetAsserted (s : State) : (State.raise .busFault s).resetAsserted = s.resetAsserted := rfl
@[simp] theorem State.raise_busFault_schedule (s : State) : (State.raise .busFault s).schedule = s.schedule := rfl
@[simp] theorem State.raise_busFault_seen (s : State) : (State.raise .busFault s).seen = s.seen := rfl
@[simp] theorem State.raise_busFault_draws (s : State) : (State.raise .busFault s).draws = s.draws + 1 := rfl

/-! ### State.refuseAccess -/

@[simp] theorem State.refuseAccess_cfg (s : State) : (s.refuseAccess).cfg = s.cfg := rfl
@[simp] theorem State.refuseAccess_args (s : State) : (s.refuseAccess).args = s.args := rfl
@[simp] theorem State.refuseAccess_res (s : State) : (s.refuseAccess).res = s.res := rfl
@[simp] theorem State.refuseAccess_resOpen (s : State) : (s.refuseAccess).resOpen = s.resOpen := rfl
@[simp] theorem State.refuseAccess_status (s : State) : (s.refuseAccess).status = s.status := rfl
@[simp] theorem State.refuseAccess_opl (s : State) : (s.refuseAccess).opl = s.opl := rfl
@[simp] theorem State.refuseAccess_work (s : State) : (s.refuseAccess).work = .refused := rfl
@[simp] theorem State.refuseAccess_mem (s : State) : (s.refuseAccess).mem = s.mem := rfl
@[simp] theorem State.refuseAccess_resetAsserted (s : State) : (s.refuseAccess).resetAsserted = s.resetAsserted := rfl
@[simp] theorem State.refuseAccess_schedule (s : State) : (s.refuseAccess).schedule = s.schedule := rfl
@[simp] theorem State.refuseAccess_seen (s : State) : (s.refuseAccess).seen = s.seen := rfl
@[simp] theorem State.refuseAccess_draws (s : State) : (s.refuseAccess).draws = s.draws := rfl

/-! ### State.returnData -/

@[simp] theorem State.returnData_cfg (v : Word) (s : State) : (State.returnData v s).cfg = s.cfg := rfl
@[simp] theorem State.returnData_args (v : Word) (s : State) : (State.returnData v s).args = s.args := rfl
@[simp] theorem State.returnData_res (v : Word) (s : State) : (State.returnData v s).res = s.res := rfl
@[simp] theorem State.returnData_resOpen (v : Word) (s : State) : (State.returnData v s).resOpen = s.resOpen := rfl
@[simp] theorem State.returnData_status (v : Word) (s : State) : (State.returnData v s).status = s.status := rfl
@[simp] theorem State.returnData_opl (v : Word) (s : State) : (State.returnData v s).opl = s.opl := rfl
@[simp] theorem State.returnData_work (v : Word) (s : State) : (State.returnData v s).work = s.work := rfl
@[simp] theorem State.returnData_mem (v : Word) (s : State) : (State.returnData v s).mem = s.mem := rfl
@[simp] theorem State.returnData_resetAsserted (v : Word) (s : State) : (State.returnData v s).resetAsserted = s.resetAsserted := rfl
@[simp] theorem State.returnData_schedule (v : Word) (s : State) : (State.returnData v s).schedule = s.schedule := rfl
@[simp] theorem State.returnData_seen (v : Word) (s : State) : (State.returnData v s).seen = v :: s.seen := rfl
@[simp] theorem State.returnData_draws (v : Word) (s : State) : (State.returnData v s).draws = s.draws := rfl

/-! ### State.clear -/

@[simp] theorem State.clear_cfg (s : State) : (s.clear).cfg = s.cfg := rfl
@[simp] theorem State.clear_args (s : State) : (s.clear).args = State.reset.args := rfl
@[simp] theorem State.clear_res (s : State) : (s.clear).res = 0 := rfl
@[simp] theorem State.clear_resOpen (s : State) : (s.clear).resOpen = true := rfl
@[simp] theorem State.clear_status (s : State) : (s.clear).status = State.reset.status := rfl
@[simp] theorem State.clear_opl (s : State) : (s.clear).opl = 0 := rfl
@[simp] theorem State.clear_work (s : State) : (s.clear).work = .dead := rfl
@[simp] theorem State.clear_mem (s : State) : (s.clear).mem = s.mem := rfl
@[simp] theorem State.clear_resetAsserted (s : State) : (s.clear).resetAsserted = s.resetAsserted := rfl
@[simp] theorem State.clear_schedule (s : State) : (s.clear).schedule = s.schedule := rfl
@[simp] theorem State.clear_seen (s : State) : (s.clear).seen = s.seen := rfl
@[simp] theorem State.clear_draws (s : State) : (s.clear).draws = s.draws := rfl

/-! ### falignBegin -/

@[simp] theorem falignBegin_cfg (ba far fs : Word) (s : State) :
    (falignBegin ba far fs s).cfg = s.cfg := rfl
@[simp] theorem falignBegin_args (ba far fs : Word) (s : State) :
    (falignBegin ba far fs s).args = s.args := rfl
@[simp] theorem falignBegin_res (ba far fs : Word) (s : State) :
    (falignBegin ba far fs s).res = s.res := rfl
@[simp] theorem falignBegin_resOpen (ba far fs : Word) (s : State) :
    (falignBegin ba far fs s).resOpen = s.resOpen := rfl
@[simp] theorem falignBegin_status (ba far fs : Word) (s : State) :
    (falignBegin ba far fs s).status = s.status := rfl
@[simp] theorem falignBegin_opl (ba far fs : Word) (s : State) :
    (falignBegin ba far fs s).opl = s.opl := rfl
@[simp] theorem falignBegin_work (ba far fs : Word) (s : State) :
    (falignBegin ba far fs s).work = s.work := rfl
@[simp] theorem falignBegin_mem (ba far fs : Word) (s : State) :
    (falignBegin ba far fs s).mem = s.mem := rfl
@[simp] theorem falignBegin_resetAsserted (ba far fs : Word) (s : State) :
    (falignBegin ba far fs s).resetAsserted = s.resetAsserted := rfl
@[simp] theorem falignBegin_schedule (ba far fs : Word) (s : State) :
    (falignBegin ba far fs s).schedule = call .gcd [ba, fs] ++ .falignDivide ba far :: s.schedule := rfl
@[simp] theorem falignBegin_seen (ba far fs : Word) (s : State) :
    (falignBegin ba far fs s).seen = s.seen := rfl
@[simp] theorem falignBegin_draws (ba far fs : Word) (s : State) :
    (falignBegin ba far fs s).draws = s.draws := rfl

/-! ### Status -/

@[simp] theorem Status.accepted_busy (t : Status) : (t.accepted).busy = true := rfl
@[simp] theorem Status.accepted_done (t : Status) : (t.accepted).done = false := rfl
@[simp] theorem Status.accepted_err (t : Status) : (t.accepted).err = 0 := rfl
@[simp] theorem Status.accepted_ovr (t : Status) : (t.accepted).ovr = t.ovr := rfl
@[simp] theorem Status.finished_busy (c : BitVec 3) (t : Status) : (Status.finished c t).busy = false := rfl
@[simp] theorem Status.finished_done (c : BitVec 3) (t : Status) : (Status.finished c t).done = true := rfl
@[simp] theorem Status.finished_err (c : BitVec 3) (t : Status) : (Status.finished c t).err = c := rfl
@[simp] theorem Status.finished_ovr (c : BitVec 3) (t : Status) : (Status.finished c t).ovr = t.ovr := rfl
@[simp] theorem Status.rejected_busy (c : BitVec 3) (t : Status) : (Status.rejected c t).busy = t.busy := rfl
@[simp] theorem Status.rejected_done (c : BitVec 3) (t : Status) : (Status.rejected c t).done = true := rfl
@[simp] theorem Status.rejected_err (c : BitVec 3) (t : Status) : (Status.rejected c t).err = c := rfl
@[simp] theorem Status.rejected_ovr (c : BitVec 3) (t : Status) : (Status.rejected c t).ovr = t.ovr := rfl
@[simp] theorem Status.overrun_busy (t : Status) : (t.overrun).busy = t.busy := rfl
@[simp] theorem Status.overrun_done (t : Status) : (t.overrun).done = t.done := rfl
@[simp] theorem Status.overrun_err (t : Status) : (t.overrun).err = t.err := rfl
@[simp] theorem Status.overrun_ovr (t : Status) : (t.overrun).ovr = true := rfl
@[simp] theorem Status.written_busy (w : Word) (t : Status) : (Status.written w t).busy = t.busy := rfl
@[simp] theorem Status.written_done (w : Word) (t : Status) : (Status.written w t).done = t.done := rfl
@[simp] theorem Status.written_err (w : Word) (t : Status) : (Status.written w t).err = t.err := rfl
@[simp] theorem Status.written_ovr (w : Word) (t : Status) : (Status.written w t).ovr = (t.ovr && !w.getLsbD 8) := rfl

/-! ### Operand registers -/

/-- Writing `x[i]` makes it read as written. -/
@[simp] theorem Args.get_set_same (x : Args) (i : Fin 5) (v : Word) : Args.get (Args.set x i v) i = v := by
  fin_cases i <;> rfl

/-- Writing `x[i]` leaves the other operand registers alone (10_state.md R11: none aliases another). -/
theorem Args.get_set_other (x : Args) (i j : Fin 5) (v : Word) (h : j ≠ i) :
    Args.get (Args.set x i v) j = Args.get x j := by
  fin_cases i <;> fin_cases j <;> first | rfl | exact absurd rfl h

end Sys2Proof.Machine
end

