-- ==== Sys2Proof/Laws/Units.lean ====
section
/-! SUPPORT. Everything one engine step of a unit can do, said once for each unit; the run of a whole operation; and what
`issue` can do. -/

namespace Sys2Proof.Machine

open Sys2Proof.Safety

/-- Everything an engine step of the unit of command `i` can do. -/
inductive EngineStep (i : Instr) (s : State) : State → Prop where
  /-- The working registers are not this unit's: nothing. -/
  | stay : EngineStep i s s
  /-- A GCD under the `INT32_MIN` edge that does not complete at this step. -/
  | draw (hi : i = .gcd) (hw : belongs i s.work = true) : EngineStep i s { s with draws := s.draws + 1 }
  /-- A read, or a refused access. -/
  | advance (w : Work) (hw : belongs i w = true) : EngineStep i s { s with work := w }
  /-- An index write of FEQ16. -/
  | write (hi : i = .feq16) (p c : Word) (hp : s.work = .feq16 p c .hit) (m : Memory) (w : Work)
      (hm : memWrite s (elemAddr (feqOut s) (idxSize s.cfg) c) (idxSize s.cfg) p = some m)
      (hw : belongs i w = true) : EngineStep i s { s with mem := m, work := w }
  /-- The completion step with a result. -/
  | complete (r : Word) : EngineStep i s (State.complete r s)
  /-- The completion step with an undefined result. -/
  | completeAny : EngineStep i s (State.completeAny s)
  /-- A GCD under the `INT32_MIN` edge that completes. -/
  | edge (hi : i = .gcd) : EngineStep i s (State.completeAny { s with draws := s.draws + 1 })
  /-- The completion step with BUS_FAULT. -/
  | busFault (hw : s.work = .refused) : EngineStep i s (State.raise .busFault s)

theorem gcdTurn_step (s : State) : EngineStep .gcd s (gcdTurn s) := by
  unfold gcdTurn
  split
  · rename_i hw
    split
    · unfold gcdMinEdge
      split
      · exact .edge rfl
      · exact .draw rfl (by rw [hw]; rfl)
    · exact .complete _
  · exact .stay

theorem crc32Turn_step (s : State) : EngineStep .crc32 s (crc32Turn s) := by
  unfold crc32Turn
  split
  · exact .busFault ‹_›
  · split
    · split
      · exact .advance .refused rfl
      · exact .advance _ rfl
    · exact .complete _
  · exact .stay

theorem flsTurn_step (s : State) : EngineStep .fls s (flsTurn s) := by
  unfold flsTurn
  split
  · exact .complete _
  · exact .stay

theorem normTurn_step (s : State) : EngineStep .norm s (normTurn s) := by
  unfold normTurn
  split
  · exact .complete _
  · exact .stay

theorem feqScan_step (i count : Word) (s : State) : EngineStep .feq16 s (feqScan i count s) := by
  unfold feqScan
  split
  · split
    · exact .advance .refused rfl
    · split
      · exact .advance _ rfl
      · exact .advance _ rfl
  · exact .complete _

theorem feqHit_step (i count : Word) (s : State) (h : s.work = .feq16 i count .hit) :
    EngineStep .feq16 s (feqHit i count s) := by
  unfold feqHit
  split
  · exact .advance .refused rfl
  · split
    · exact .write rfl i count h _ _ ‹_› rfl
    · exact .write rfl i count h _ _ ‹_› rfl

theorem feq16Turn_step (s : State) : EngineStep .feq16 s (feq16Turn s) := by
  unfold feq16Turn
  split
  · exact .busFault ‹_›
  · unfold feqPhaseTurn
    split
    · exact feqScan_step _ _ _
    · exact feqHit_step _ _ _ ‹_›
    · exact .complete _
  · exact .stay

theorem fmin16Turn_step (s : State) : EngineStep .fmin16 s (fmin16Turn s) := by
  unfold fmin16Turn
  split
  · exact .busFault ‹_›
  · split
    · split
      · exact .advance .refused rfl
      · exact .advance _ rfl
    · split
      · exact .completeAny
      · exact .complete _
  · exact .stay

theorem fmaxa32Turn_step (s : State) : EngineStep .fmaxa32 s (fmaxa32Turn s) := by
  unfold fmaxa32Turn
  split
  · exact .busFault ‹_›
  · split
    · split
      · exact .advance .refused rfl
      · exact .advance _ rfl
    · split
      · exact .completeAny
      · exact .complete _
  · exact .stay

/-- Everything an engine step can do, for every unit. -/
theorem unitTurn_step (i : Instr) (s : State) : EngineStep i s (unitTurn i s) := by
  cases i with
  | gcd => exact gcdTurn_step s
  | crc32 => exact crc32Turn_step s
  | fls => exact flsTurn_step s
  | norm => exact normTurn_step s
  | feq16 => exact feq16Turn_step s
  | fmin16 => exact fmin16Turn_step s
  | fmaxa32 => exact fmaxa32Turn_step s

/-- An engine step changes neither the parameters, the operand registers, OVR, the reset input nor the other agents'
side. -/
theorem EngineStep.kept {i : Instr} {s t : State} (h : EngineStep i s t) : Kept s t := by
  cases h <;> exact ⟨rfl, rfl, rfl, rfl, rfl, rfl⟩

/-- An engine step of any unit but FEQ16's writes no memory (20_memory.md R44). -/
theorem EngineStep.mem_eq {i : Instr} {s t : State} (h : EngineStep i s t) (hi : i ≠ .feq16) : t.mem = s.mem := by
  cases h with
  | write hf => exact absurd hf hi
  | _ => rfl

/-- An engine step keeps the canonical form of memory. -/
theorem EngineStep.mem_wf {i : Instr} {s t : State} (h : EngineStep i s t) (hm : Memory.wf s.mem = true) :
    Memory.wf t.mem = true := by
  cases h with
  | write _ _ _ _ _ _ hw _ => exact memWrite_wf hw hm
  | _ => exact hm

/-! ### Runs -/

/-- A relation that holds of nothing done, and that one more step keeps, holds of a run. -/
theorem runTurns_induction {turn : State → State} (P : State → State → Prop) (refl : ∀ s, P s s)
    (step : ∀ s t, s.status.busy = true → P (turn s) t → P s t) (fuel : Nat) (s : State) :
    P s (runTurns turn fuel s) := by
  induction fuel generalizing s with
  | zero => exact refl s
  | succ n ih =>
    unfold runTurns
    split
    · exact step s _ ‹_› (ih _)
    · exact refl s

/-- A run that has ended goes no further. -/
theorem runTurns_idle {turn : State → State} {s : State} (fuel : Nat) (h : s.status.busy = false) :
    runTurns turn fuel s = s := by
  cases fuel <;> simp [runTurns, h]

/-- One step of a run. -/
theorem runTurns_busy {turn : State → State} {s : State} (fuel : Nat) (h : s.status.busy = true) :
    runTurns turn (fuel + 1) s = runTurns turn fuel (turn s) := by
  simp [runTurns, h]

/-- A run in two parts. -/
theorem runTurns_add {turn : State → State} (m n : Nat) (s : State) :
    runTurns turn (m + n) s = runTurns turn n (runTurns turn m s) := by
  induction m generalizing s with
  | zero => simp [runTurns]
  | succ m ih =>
    cases h : s.status.busy with
    | true => rw [Nat.add_right_comm, runTurns_busy _ h, runTurns_busy _ h, ih]
    | false => simp [runTurns_idle _ h]

/-- A run of a unit keeps what each of its steps keeps. -/
theorem runTurns_kept {i : Instr} {turn : State → State} (ht : ∀ s, EngineStep i s (turn s)) (fuel : Nat) (s : State) :
    Kept s (runTurns turn fuel s) := by
  refine runTurns_induction Kept (fun _ => ⟨rfl, rfl, rfl, rfl, rfl, rfl⟩) (fun s t _ h => ?_) fuel s
  obtain ⟨h1, h2, h3, h4, h5, h6⟩ := (ht s).kept
  obtain ⟨k1, k2, k3, k4, k5, k6⟩ := h
  exact ⟨k1.trans h1, k2.trans h2, k3.trans h3, k4.trans h4, k5.trans h5, k6.trans h6⟩

/-- A predicate every step of a unit keeps, a run of it keeps. -/
theorem runTurns_invariant {i : Instr} {turn : State → State} (ht : ∀ s, EngineStep i s (turn s)) (P : State → Prop)
    (hP : ∀ s t, EngineStep i s t → s.status.busy = true → P s → P t) (fuel : Nat) (s : State) (h : P s) :
    P (runTurns turn fuel s) :=
  runTurns_induction (fun s t => P s → P t) (fun _ h => h) (fun s _ hb k h => k (hP s _ (ht s) hb h)) fuel s h

/-- Everything `issue` can do (40_command_lifecycle.md R92). -/
theorem issue_cases (i : Instr) (start : Work) (fuel : Nat) (turn : State → State) (s : State) :
    (s.status.busy = true ∧ issue i start fuel turn s = .next s.overrun) ∨
    (s.status.busy = false ∧ present s.cfg i = false ∧ issue i start fuel turn s = .next (State.raise .unitAbsent s)) ∨
    (Ready i s ∧ issue i start fuel turn s = .next (runTurns turn fuel (State.accept i start s))) ∨
    (s.status.busy = false ∧ present s.cfg i = true ∧ quiet s = false ∧
      issue i start fuel turn s = .next (State.accept i start s)) := by
  unfold issue Ready
  cases s.status.busy <;> cases present s.cfg i <;> cases quiet s <;> simp

/-- A command that is accepted and runs undisturbed. -/
theorem issue_ready {i : Instr} {start : Work} {fuel : Nat} {turn : State → State} {s : State} (h : Ready i s) :
    issue i start fuel turn s = .next (runTurns turn fuel (State.accept i start s)) := by
  obtain ⟨h1, h2, h3⟩ := h
  simp [issue, h1, h2, h3]

end Sys2Proof.Machine
end

