-- ==== Sys2Proof/Laws/Step.lean ====
section
/-! SUPPORT. What a command does, what the engine's turn does, and what a step does: one inversion each. -/

namespace Sys2Proof.Machine

open Sys2Proof.Safety

/-- Every command is issued with working registers of its own unit and runs that unit's steps. -/
theorem exec_eq_issue (i : Instr) (s : State) :
    ∃ start fuel, belongs i start = true ∧ exec i s = issue i start fuel (unitTurn i) s := by
  cases i <;> exact ⟨_, _, rfl, rfl⟩

/-- Everything a command can do (40_command_lifecycle.md R92). -/
theorem exec_cases (i : Instr) (s : State) :
    (s.status.busy = true ∧ exec i s = .next s.overrun) ∨
    (s.status.busy = false ∧ present s.cfg i = false ∧ exec i s = .next (State.raise .unitAbsent s)) ∨
    (∃ start fuel, belongs i start = true ∧ Ready i s ∧
      exec i s = .next (runTurns (unitTurn i) fuel (State.accept i start s))) ∨
    (∃ start, belongs i start = true ∧ s.status.busy = false ∧ present s.cfg i = true ∧ quiet s = false ∧
      exec i s = .next (State.accept i start s)) := by
  obtain ⟨start, fuel, hb, he⟩ := exec_eq_issue i s
  rw [he]
  rcases issue_cases i start fuel (unitTurn i) s with h | h | h | h
  · exact .inl h
  · exact .inr (.inl h)
  · exact .inr (.inr (.inl ⟨start, fuel, hb, h⟩))
  · exact .inr (.inr (.inr ⟨start, hb, h⟩))

/-- Everything the engine's turn can do: nothing, or one step of the unit OPL names while BUSY = 1. -/
theorem engineTurn_cases (s : State) :
    engineTurn s = s ∨
    ∃ i, s.status.busy = true ∧ s.resetAsserted = false ∧ s.opl = opcodeOf i ∧ EngineStep i s (engineTurn s) := by
  unfold engineTurn
  split
  · split
    · rename_i hb _ i hi
      simp only [Bool.and_eq_true, Bool.not_eq_true'] at hb
      exact .inr ⟨i, hb.1, hb.2, (instrOfOpcode_eq_some_iff _ _).1 hi, unitTurn_step i s⟩
    · exact .inl rfl
  · exact .inl rfl

/-- When the next turn issues a command, and in what state. -/
theorem fetch_eq_some_iff (s : State) (i : Instr) (t : State) :
    fetch s = some (i, t) ↔
      ∃ off n v rest, s.schedule = .write off n v :: rest ∧ s.resetAsserted = false ∧ registerAccessWf off n = true ∧
        regOf off = .cmd ∧ decode v = .ok i ∧ t = { s with schedule := rest } := by
  unfold fetch
  split
  · rename_i off n v rest hs
    constructor
    · intro h
      split at h
      · cases h
      · split at h
        · split at h
          · rename_i hr hw _ j hd
            simp only [Option.some.injEq, Prod.mk.injEq] at h
            exact ⟨off, n, v, rest, hs, by simpa using hr, hw.1, hw.2, by rw [hd, h.1], h.2.symm⟩
          · cases h
        · cases h
    · rintro ⟨off', n', v', rest', he, hr, hw, hc, hd, rfl⟩
      rw [hs] at he
      cases he
      simp [hr, hw, hc, hd]
  · rename_i hne
    constructor
    · intro h; cases h
    · rintro ⟨off, n, v, rest, he, -⟩
      exact absurd he (hne off n v rest)

/-- What a step does: a command that is issued, or another turn. -/
theorem step_cases {s t : State} (h : step s = .next t) :
    (∃ i u, fetch s = some (i, u) ∧ exec i u = .next t) ∨ (fetch s = none ∧ otherTurn s = .next t) := by
  unfold step at h
  split at h
  · exact .inl ⟨_, _, ‹_›, h⟩
  · exact .inr ⟨‹_›, h⟩

/-- Everything a register write that starts no command can do. -/
theorem writeReg_cases (r : Reg) (v : Word) (s : State) :
    writeReg r v s = s ∨
    (s.status.busy = true ∧ writeReg r v s = s.overrun ∧ (r = .cmd ∨ ∃ i, r = .arg i)) ∨
    (r = .cmd ∧ s.status.busy = false ∧ writeReg r v s = State.raise .illegalCmd s) ∨
    (r = .status ∧ writeReg r v s = { s with status := Status.written v s.status }) ∨
    (∃ i, r = .arg i ∧ s.status.busy = false ∧ writeReg r v s = { s with args := Args.set s.args i v }) := by
  cases r <;> simp only [writeReg, writeIllegal]
  all_goals first | exact .inl rfl | (cases h : s.status.busy <;> simp)

/-- A register read changes nothing but what the host has seen and the count of free values (10_state.md R29). -/
theorem readReg_eq (r : Reg) (s : State) :
    ∃ v d, readReg r s = { s with seen := v :: s.seen, draws := d } := by
  cases r with
  | res => simp only [readReg, readRes]; split <;> exact ⟨_, _, rfl⟩
  | _ => exact ⟨_, _, rfl⟩

/-- Taking the value the host read last changes at most the count of free values. -/
theorem lastRead_eq (s : State) : ∃ d, (lastRead s).2 = { s with draws := d } := by
  unfold lastRead
  split <;> exact ⟨_, rfl⟩

/-- The value the host read last does not depend on what the agents do next. -/
theorem lastRead_schedule (s : State) (turns : List Turn) :
    (lastRead { s with schedule := turns }).1 = (lastRead s).1 := by
  cases h : s.seen <;> simp [lastRead, h]

/-- Everything the host's first division can do (41_gcd.md R117, R118). -/
theorem falignDivide_cases (ba far : Word) (s : State) :
    ((lastRead s).1 = 0 ∧ falignDivide ba far s = .fault .divisionByZero) ∨
    ((lastRead s).1 ≠ 0 ∧ ∃ d, falignDivide ba far s = .next { s with
      schedule := call .gcd [ba / (lastRead s).1, far] ++ .falignFinish far (ba / (lastRead s).1) :: s.schedule, draws := d }) := by
  obtain ⟨d, hd⟩ := lastRead_eq s
  unfold falignDivide
  by_cases h : (lastRead s).1 = 0
  · exact .inl ⟨h, by simp only [h, if_true]⟩
  · exact .inr ⟨h, d, by simp only [h, if_false, hd]⟩

/-- Everything the end of `falign` can do (41_gcd.md R117, R118). -/
theorem falignFinish_cases (far num : Word) (s : State) :
    ((lastRead s).1 = 0 ∧ falignFinish far num s = .fault .divisionByZero) ∨
    ((lastRead s).1 ≠ 0 ∧ 2 ^ 32 ≤ far.toNat * num.toNat ∧ falignFinish far num s = .refused .falignOverflow) ∨
    ((lastRead s).1 ≠ 0 ∧ far.toNat * num.toNat < 2 ^ 32 ∧
      ∃ d, falignFinish far num s = .next { s with seen := (far * num) / (lastRead s).1 :: s.seen, draws := d }) := by
  obtain ⟨d, hd⟩ := lastRead_eq s
  unfold falignFinish
  by_cases h : (lastRead s).1 = 0
  · exact .inl ⟨h, by simp only [h, if_true]⟩
  · by_cases hp : far.toNat * num.toNat < 2 ^ 32
    · exact .inr (.inr ⟨h, hp, d, by simp only [h, hp, if_true, if_false]; rw [hd]; rfl⟩)
    · exact .inr (.inl ⟨h, by omega, by simp only [h, hp, if_false]⟩)

/-- Everything a turn other than the write of a command's word can do, by the turn. -/
inductive OtherTurn (s : State) : State → Prop where
  | alone (h : s.schedule = []) : OtherTurn s (engineTurn s)
  | engine (rest : List Turn) (h : s.schedule = .engine :: rest) : OtherTurn s (engineTurn { s with schedule := rest })
  | polls (rest : List Turn) (h : s.schedule = .wait :: rest) (hd : s.status.done = false) : OtherTurn s (engineTurn s)
  | waits (rest : List Turn) (h : s.schedule = .wait :: rest) (hr : s.resetAsserted = true) : OtherTurn s s
  | waited (rest : List Turn) (h : s.schedule = .wait :: rest) (hd : s.status.done = true)
      (hr : s.resetAsserted = false) :
      OtherTurn s (State.returnData (statusWord s.status) { s with schedule := rest })
  | dropped (rest : List Turn) (hr : s.resetAsserted = true)
      (h : (∃ off n v, s.schedule = .write off n v :: rest) ∨ (∃ off n, s.schedule = .read off n :: rest)) :
      OtherTurn s { s with schedule := rest }
  | write (off : BitVec 6) (n : AccessSize) (v : Word) (rest : List Turn) (h : s.schedule = .write off n v :: rest)
      (hr : s.resetAsserted = false) (hw : registerAccessWf off n = true) :
      OtherTurn s (writeReg (regOf off) v { s with schedule := rest })
  | read (off : BitVec 6) (n : AccessSize) (rest : List Turn) (h : s.schedule = .read off n :: rest)
      (hr : s.resetAsserted = false) (hw : registerAccessWf off n = true) :
      OtherTurn s (readReg (regOf off) { s with schedule := rest })
  | store (a : Word) (bytes : List Byte) (rest : List Turn) (h : s.schedule = .store a bytes :: rest) :
      OtherTurn s { s with schedule := rest, mem := Memory.store s.mem a bytes }
  | load (a : Word) (v : Word) (rest : List Turn) (h : s.schedule = .load a :: rest) :
      OtherTurn s (State.returnData v { s with schedule := rest })
  | assertReset (rest : List Turn) (h : s.schedule = .assertReset :: rest) :
      OtherTurn s { State.clear s with schedule := rest, resetAsserted := true }
  | releaseReset (rest : List Turn) (h : s.schedule = .releaseReset :: rest) :
      OtherTurn s { s with schedule := rest, resetAsserted := false }
  | falignBegin (ba far fs : Word) (rest : List Turn) (h : s.schedule = .falign ba far fs :: rest) :
      OtherTurn s (falignBegin ba far fs { s with schedule := rest })
  | falignDivide (ba far : Word) (rest todo : List Turn) (d : Nat) (h : s.schedule = .falignDivide ba far :: rest) :
      OtherTurn s { s with schedule := todo, draws := d }
  | falignFinish (far num v : Word) (rest : List Turn) (d : Nat) (h : s.schedule = .falignFinish far num :: rest) :
      OtherTurn s { s with schedule := rest, seen := v :: s.seen, draws := d }

/-- What a turn other than the write of a command's word does. -/
theorem otherTurn_cases {s t : State} (h : otherTurn s = .next t) : OtherTurn s t := by
  unfold otherTurn at h
  split at h
  · cases h; exact .alone ‹_›
  · cases h; exact .engine _ ‹_›
  · rename_i off n v rest hs
    unfold hostWrite at h
    split at h
    · cases h; exact .dropped rest ‹_› (.inl ⟨_, _, _, hs⟩)
    · rename_i hr
      split at h
      · cases h; exact .write off n v rest hs (by simpa using hr) ‹_›
      · cases h
  · rename_i off n rest hs
    unfold hostRead at h
    split at h
    · cases h; exact .dropped rest ‹_› (.inr ⟨_, _, hs⟩)
    · rename_i hr
      split at h
      · cases h; exact .read off n rest hs (by simpa using hr) ‹_›
      · cases h
  · rename_i rest hs
    cases h
    unfold hostWait
    split
    · exact .waits rest hs ‹_›
    · rename_i hr
      split
      · exact .waited rest hs ‹_› (by simpa using hr)
      · exact .polls rest hs (by simpa using ‹¬s.status.done = true›)
  · rename_i a bytes rest hs
    unfold masterStore at h
    split at h
    · cases h
    · cases h; exact .store a bytes rest hs
  · rename_i a rest hs
    unfold masterLoad at h
    split at h
    · cases h
    · cases h; exact .load a _ rest hs
  · cases h; exact .assertReset _ ‹_›
  · cases h; exact .releaseReset _ ‹_›
  · cases h; exact .falignBegin _ _ _ _ ‹_›
  · rename_i ba far rest hs
    obtain ⟨-, e⟩ | ⟨-, d, e⟩ := falignDivide_cases ba far { s with schedule := rest } <;> rw [e] at h <;> cases h
    exact .falignDivide ba far rest _ d hs
  · rename_i far num rest hs
    obtain ⟨-, e⟩ | ⟨-, -, e⟩ | ⟨-, -, d, e⟩ := falignFinish_cases far num { s with schedule := rest } <;>
      rw [e] at h <;> cases h
    exact .falignFinish far num _ rest d hs

end Sys2Proof.Machine
end

