-- ==== Sys2Proof/Tests/Slice0.lean ====
section
/-! SUPPORT. Tests: well-formedness, decoding, the vectors of 95_test_vectors.md one command at a time, and a witness for
the hypotheses of every statement. -/

namespace Sys2Proof.Tests

open Sys2Proof.Machine Sys2Proof.Safety

/-! ### Helpers -/

/-- The reset state with operands and bytes of memory at an address. -/
def idle (args : Args) (at_ : Word) (bytes : List Byte) : State :=
  { State.reset with args := args, mem := Memory.store [] at_ bytes }

/-- An engine with a CRC32 in flight, and a schedule. -/
def busy (schedule : List Turn) : State :=
  { State.accept .crc32 (.crc32 0xFFFFFFFF#32 0 0 0) { State.reset with args := ⟨0, 0x1000, 4, 0, 0⟩ } with
    schedule := schedule }

/-- The reset state with a schedule. -/
def scheduled (schedule : List Turn) : State := { State.reset with schedule := schedule }

/-- RES, where it is defined, and STATUS. -/
def outcome (o : Host.Outcome State Fault Refusal) : Option (Option Word × Word) :=
  match o with
  | .next t => some (if t.resOpen then none else some t.res, statusWord t.status)
  | _ => none

/-- STATUS, and bytes of memory. -/
def stored (o : Host.Outcome State Fault Refusal) (a : Word) (n : Nat) : Option (Word × List Byte) :=
  match o with
  | .next t => some (statusWord t.status, Memory.load t.mem a n)
  | _ => none

/-- What the host holds after some steps. -/
def answer (k : Nat) (s : State) : Except Fault (Option Word) :=
  match runSteps k s with
  | .next t => .ok t.seen.head?
  | .fault f => .error f
  | .refused _ => .ok none

/-- What a step of a schedule leaves, by a function of the next state. -/
def after {α : Type} (f : State → α) (s : State) : Option α :=
  match step s with
  | .next t => some (f t)
  | _ => none

/-! ### Well-formedness: an ill-formed term for each check -/

/-- 30_encoding.md R75: RSV not zero. -/
theorem test_wf_reserved_bits : CommandWord.wf { rsv := 1, opc := 1 } = false := by decide
/-- 30_encoding.md R75: OPC 0. -/
theorem test_wf_opcode_zero : CommandWord.wf { rsv := 0, opc := 0 } = false := by decide
/-- 30_encoding.md R75: OPC 8. -/
theorem test_wf_opcode_eight : CommandWord.wf { rsv := 0, opc := 8 } = false := by decide
theorem test_wf_good : CommandWord.wf { rsv := 0, opc := 7 } = true := by decide
/-- 10_state.md R30: a 16-bit access. -/
theorem test_wf_access_width : registerAccessWf 0x10#6 .two = false := by decide
/-- 10_state.md R30: a misaligned access. -/
theorem test_wf_access_aligned : registerAccessWf 0x11#6 .four = false := by decide
/-- 00_scope.md R6: NPC_BASE is a multiple of 64. -/
theorem test_wf_base : Config.wf { resetConfig with npcBase := 0x40000020#32 } = false := by decide
theorem test_wf_reset_config : Config.wf resetConfig = true := by decide
/-- A memory with addresses out of order, one with a listed unlisted value, one outside the space. -/
theorem test_wf_memory_order : Memory.wf [(2, 1), (1, 1)] = false := by decide
theorem test_wf_memory_zero : Memory.wf [(1, 0)] = false := by decide
theorem test_wf_memory_space : Memory.wf [(0x100000000, 1)] = false := by decide

/-! ### Decoding: words written out bit by bit from 30_encoding.md R71, R72 (RSV in bits 31:4, OPC in bits 3:0) -/

theorem test_decode_gcd : decode 0b0000000000000000000000000000_0001#32 = .ok .gcd := by decide
theorem test_decode_crc32 : decode 0b0000000000000000000000000000_0010#32 = .ok .crc32 := by decide
theorem test_decode_fls : decode 0b0000000000000000000000000000_0011#32 = .ok .fls := by decide
theorem test_decode_norm : decode 0b0000000000000000000000000000_0100#32 = .ok .norm := by decide
theorem test_decode_feq16 : decode 0b0000000000000000000000000000_0101#32 = .ok .feq16 := by decide
theorem test_decode_fmin16 : decode 0b0000000000000000000000000000_0110#32 = .ok .fmin16 := by decide
theorem test_decode_fmaxa32 : decode 0b0000000000000000000000000000_0111#32 = .ok .fmaxa32 := by decide
/-- Q7 and Q8 of 95_test_vectors.md. -/
theorem test_decode_reserved_low : decode 0b0000000000000000000000000001_0001#32 = .error .reservedBits := by decide
theorem test_decode_reserved_high : decode 0b1000000000000000000000000000_0001#32 = .error .reservedBits := by decide
/-- Q5 and Q6. -/
theorem test_decode_opcode_zero : decode 0b0000000000000000000000000000_0000#32 = .error .reservedOpcode := by decide
theorem test_decode_opcode_fifteen : decode 0b0000000000000000000000000000_1111#32 = .error .reservedOpcode := by decide
theorem test_table_word : decodeTableWord 32 7 = some .fmaxa32 := by decide
theorem test_table_word_too_wide : decodeTableWord 32 0x100000001 = none := by decide

/-! ### One command each (the vector's number in 95_test_vectors.md) -/

/-- G2. -/
theorem test_gcd_negative :
    outcome (exec .gcd (idle ⟨0xFFFFFFF8#32, 20, 0, 0, 0⟩ 0 [])) = some (some 4#32, 0x002#32) := by decide +kernel
/-- G22, with `unsigned_magnitude`. -/
theorem test_gcd_min :
    outcome (exec .gcd { idle ⟨0x80000000#32, 12, 0, 0, 0⟩ 0 [] with
      cfg := { resetConfig with gcdMinPolicy := .unsignedMagnitude } }) = some (some 4#32, 0x002#32) := by decide +kernel
/-- K14. -/
theorem test_crc32_chained :
    outcome (exec .crc32 (idle ⟨0xDEADBEEF#32, 0x1000#32, 9, 0, 0⟩ 0x1000#32
      [0x31, 0x32, 0x33, 0x34, 0x35, 0x36, 0x37, 0x38, 0x39])) = some (some 0xE34F7C78#32, 0x002#32) := by
  decide +kernel
/-- K16. -/
theorem test_crc32_refused :
    outcome (exec .crc32 (idle ⟨0, 0xFFE#32, 4, 0, 0⟩ 0 [])) = some (none, 0x032#32) := by decide +kernel
/-- L2.4. -/
theorem test_fls_middle :
    outcome (exec .fls (idle ⟨0x00012345#32, 0, 0, 0, 0⟩ 0 [])) = some (some 17#32, 0x002#32) := by decide +kernel
theorem test_fls_top :
    outcome (exec .fls (idle ⟨0x80000000#32, 0, 0, 0, 0⟩ 0 [])) = some (some 32#32, 0x002#32) := by decide +kernel
/-- L2.5. -/
theorem test_norm_negative :
    outcome (exec .norm (idle ⟨0xBFFFFFFF#32, 0, 0, 0, 0⟩ 0 [])) = some (some 0#32, 0x002#32) := by decide +kernel
/-- Q9. -/
theorem test_norm_absent :
    outcome (exec .norm { idle ⟨1, 0, 0, 0, 0⟩ 0 [] with cfg := { resetConfig with hasNorm := false } }) =
      some (none, 0x022#32) := by decide +kernel
/-- V1. -/
theorem test_feq16_all :
    stored (exec .feq16 (idle ⟨0x3100#32, 0x3000#32, 0xFFFFFFFD#32, 4, 0⟩ 0x3000#32
      [0x05, 0x00, 0xFD, 0xFF, 0x09, 0x00, 0xFD, 0xFF])) 0x3100#32 6 = some (0x002#32, [1, 0, 3, 0, 0, 0]) := by
  decide +kernel
/-- V9b: the index array overlaps the input. -/
theorem test_feq16_overlap :
    stored (exec .feq16 (idle ⟨0x3002#32, 0x3000#32, 1, 4, 0⟩ 0x3000#32 [1, 0, 1, 0, 9, 0, 9, 0])) 0x3000#32 8 =
      some (0x002#32, [1, 0, 0, 0, 9, 0, 9, 0]) := by decide +kernel
/-- V12. -/
theorem test_fmin16_sign :
    outcome (exec .fmin16 (idle ⟨0x3400#32, 3, 0, 0, 0⟩ 0x3400#32 [0x00, 0x80, 0xFF, 0x7F, 0x00, 0x00])) =
      some (some 0xFFFF8000#32, 0x002#32) := by decide +kernel
/-- V14. -/
theorem test_fmin16_empty :
    outcome (exec .fmin16 (idle ⟨0x3000#32, 0, 0, 0, 0⟩ 0x3000#32 [5])) = some (none, 0x002#32) := by decide +kernel
/-- V20. -/
theorem test_fmaxa32_negative :
    outcome (exec .fmaxa32 (idle ⟨0x2000#32, 3, 0, 0, 0⟩ 0x2000#32
      [3, 0, 0, 0, 0xF9, 0xFF, 0xFF, 0xFF, 2, 0, 0, 0])) = some (some 7#32, 0x002#32) := by decide +kernel
/-- V21. -/
theorem test_fmaxa32_saturates :
    outcome (exec .fmaxa32 (idle ⟨0x2100#32, 1, 0, 0, 0⟩ 0x2100#32 [0, 0, 0, 0x80])) =
      some (some 0x7FFFFFFF#32, 0x002#32) := by decide +kernel
/-- `falign` in L2.2. -/
theorem test_falign : answer 13 (scheduled [.falign 16 6 20]) = .ok (some 12#32) := by decide +kernel
theorem test_falign_zero : answer 13 (scheduled [.falign 0 2 0]) = .error .divisionByZero := by decide +kernel
/-- 41_gcd.md R117 on a busy engine: the operand writes and the command are dropped, and the host waits for the CRC32 in
flight, whose 0x2144DF1C for four zero bytes (K7) it takes for `g1`. -/
theorem test_falign_busy : answer 9 (busy [.falign 16 6 20]) = .ok none ∧
    answer 10 (busy [.falign 16 6 20]) = .ok (some 0x102#32) ∧
    answer 11 (busy [.falign 16 6 20]) = .ok (some 0x2144DF1C#32) := by decide +kernel
/-- Q2: CAP of the default instance. -/
theorem test_cap : after (fun t => t.seen) (scheduled [.read 0x0C#6 .four]) = some [0x000000FE#32] := by decide +kernel
/-- Q13: a command written while BUSY = 1. -/
theorem test_overrun : after (fun t => statusWord t.status) (busy [wrCommand .gcd]) = some 0x101#32 := by decide +kernel
/-- A step runs the command it fetches as the first one after reset. -/
theorem test_first_command :
    after (fun t => statusWord t.status) (State.reset.withFetchWord 32 3) = some 0x002#32 := by decide +kernel

/-! ### Witnesses: concrete states that meet the hypotheses of each statement -/

/-- A state whose next turn is the given one. -/
def next (x : Turn) : State := scheduled [x]

/-- The same on an instance without the optional units. -/
def nextLean (x : Turn) : State := { next x with cfg := { resetConfig with hasNorm := false, hasVec := false } }

theorem test_w_StepRunsDecodedCommand :
    (next (.write 0x00#6 .four 7)).resetAsserted = false ∧
    (next (.write 0x00#6 .four 7)).schedule = .write 0x00#6 .four 7#32 :: [] ∧ decode 7#32 = .ok .fmaxa32 := by decide

theorem test_w_CommandWriteChecksInOrder :
    ((busy [.write 0x00#6 .four 0]).resetAsserted = false ∧
      (busy [.write 0x00#6 .four 0]).schedule = .write 0x00#6 .four 0#32 :: [] ∧
      (busy [.write 0x00#6 .four 0]).status.busy = true) ∧
    ((next (.write 0x00#6 .four 0)).status.busy = false ∧ (0#32).toNat = 0) ∧
    ((next (.write 0x00#6 .four 8)).status.busy = false ∧ 8 ≤ (8#32).toNat) ∧
    ((nextLean (.write 0x00#6 .four 4)).resetAsserted = false ∧
      (nextLean (.write 0x00#6 .four 4)).schedule = .write 0x00#6 .four 4#32 :: [] ∧
      (nextLean (.write 0x00#6 .four 4)).status.busy = false ∧ 4#32 = encode .norm ∧
      present (nextLean (.write 0x00#6 .four 4)).cfg .norm = false) ∧
    ((next (.write 0x00#6 .four 7)).status.busy = false ∧ 7#32 = encode .fmaxa32 ∧
      present (next (.write 0x00#6 .four 7)).cfg .fmaxa32 = true ∧
      quiet { next (.write 0x00#6 .four 7) with schedule := [.engine] } = false) := by decide

theorem test_w_AcceptanceStartsOperation :
    ((scheduled [.engine]).status.busy = false ∧ present (scheduled [.engine]).cfg .feq16 = true ∧
      quiet (scheduled [.engine]) = false) ∧
    (∃ t, (busy [wrArg 0 5]).status.busy = true ∧ (busy [wrArg 0 5]).schedule = .write 0x10#6 .four 5#32 :: [] ∧
      step (busy [wrArg 0 5]) = .next t) := ⟨by decide, _, by decide, by decide, rfl⟩

theorem test_w_RejectionWritesErrAndDoneOnly :
    ((next (.write 0x00#6 .four 0x11)).resetAsserted = false ∧ (next (.write 0x00#6 .four 0x11)).status.busy = false ∧
      ∀ i, decode 0x11#32 ≠ .ok i) ∧
    ((nextLean .engine).status.busy = false ∧ present (nextLean .engine).cfg .fmin16 = false) :=
  ⟨⟨by decide, by decide, by intro i; cases i <;> decide⟩, by decide⟩

theorem test_w_OperandWriteOrOverrun :
    (∀ i : Fin 5, (next (wrArg i 5)).resetAsserted = false ∧ (next (wrArg i 5)).schedule = wrArg i 5#32 :: [] ∧
      (next (wrArg i 5)).status.busy = false) ∧
    (∀ i : Fin 5, (busy [wrArg i 5]).resetAsserted = false ∧ (busy [wrArg i 5]).status.busy = true) := by decide

theorem test_w_StatusWriteClearsOverrun :
    (next clrOvr).resetAsserted = false ∧ (next clrOvr).schedule = .write 0x04#6 .four 0x100#32 :: [] := by decide

theorem test_w_ReadOnlyWritesIgnored :
    (∀ off : BitVec 6, (next (.write off .four 1)).resetAsserted = false ∧
      (next (.write off .four 1)).schedule = .write off .four 1#32 :: []) ∧
    (0x24#6 ≤ 0x24#6 ∧ 0x24#6 &&& 3#6 = 0#6) ∧ (0x24#6 ≤ 0x3C#6 ∧ 0x3C#6 &&& 3#6 = 0#6) :=
  ⟨fun _ => ⟨rfl, rfl⟩, by decide, by decide⟩

theorem test_w_RegisterReadHasNoEffect :
    (busy [rdStatus]).resetAsserted = false ∧ 0x04#6 &&& 3#6 = 0#6 ∧
    (busy [rdStatus]).schedule = .read 0x04#6 .four :: [] := by decide

theorem test_w_RegisterReadValues :
    (next rdRes).resetAsserted = false ∧ (next rdRes).schedule = .read 0x08#6 .four :: [] ∧
    (next rdRes).resOpen = true ∧ (State.complete 6 (next rdRes)).resOpen = false ∧
    (∀ i : Fin 5, argOffset i ∈ [0x10#6, 0x14#6, 0x18#6, 0x1C#6, 0x20#6]) ∧
    (0x24#6 ≤ 0x3C#6 ∧ 0x3C#6 &&& 3#6 = 0#6) := by decide

theorem test_w_StatusWordLayout :
    ∃ t, (busy [.write 0x04#6 .four 0xFFFFFFFF]).resetAsserted = false ∧
      step (busy [.write 0x04#6 .four 0xFFFFFFFF]) = .next t := ⟨_, by decide, rfl⟩

theorem test_w_CapReportsInstance :
    resetConfig.idxBytes = .two ∧ resetConfig.bigEndian = false ∧ resetConfig.hasNorm = true ∧
    resetConfig.hasVec = true ∧ (next (.read 0x0C#6 .four)).resetAsserted = false ∧
    (next (.write 0x0C#6 .four 9)).resetAsserted = false := by decide

theorem test_w_NonWordRegisterAccessRefused :
    (next (.write 0x10#6 .two 5)).resetAsserted = false ∧ AccessSize.two ≠ .four ∧
    (next (.read 0x11#6 .four)).resetAsserted = false ∧ 0x11#6 &&& 3#6 ≠ 0#6 := by decide

theorem test_w_OverrunIsSticky :
    ((busy [wrArg 4 5]).resetAsserted = false ∧ (busy [wrArg 4 5]).status.busy = true ∧
      (busy [wrArg 4 5]).schedule = .write (argOffset 4) .four 5#32 :: []) ∧
    (∃ t, step (busy [wrArg 4 5]) = .next t ∧ (busy [wrArg 4 5]).status.ovr = false ∧ t.status.ovr = true) ∧
    (∃ t, step (State.overrun (next clrOvr)) = .next t ∧ (State.overrun (next clrOvr)).status.ovr = true ∧
      t.status.ovr = false) ∧
    (∃ t, step (State.overrun (next .assertReset)) = .next t ∧ (State.overrun (next .assertReset)).status.ovr = true ∧
      t.status.ovr = false) :=
  ⟨by decide, ⟨_, rfl, by decide, by decide⟩, ⟨_, rfl, by decide, by decide⟩, ⟨_, rfl, by decide, by decide⟩⟩

theorem test_w_OverrunDoesNotInfluenceCommands :
    ∃ t, State.reset.status.busy = false ∧ exec .norm State.reset = .next t := ⟨_, by decide, rfl⟩

theorem test_w_ResetAbandonsOperation :
    (busy [.assertReset]).schedule = .assertReset :: [] ∧
    (next .releaseReset).schedule = .releaseReset :: [] ∧
    { next rdStatus with resetAsserted := true }.resetAsserted = true ∧
    { next rdStatus with resetAsserted := true }.schedule = .read 0x04#6 .four :: [] ∧
    { next (wrArg 0 1) with resetAsserted := true }.schedule = .write 0x10#6 .four 1#32 :: [] ∧
    { next .engine with resetAsserted := true }.schedule = .engine :: [] := by decide

theorem test_w_WaitPollsUntilDone :
    (busy [.wait]).resetAsserted = false ∧ (busy [.wait]).schedule = .wait :: [] ∧ (busy [.wait]).status.done = false ∧
    (State.complete 6 (next .wait)).resetAsserted = false ∧ (State.complete 6 (next .wait)).schedule = .wait :: [] ∧
    (State.complete 6 (next .wait)).status.done = true := by decide

theorem test_w_MasterStoreInterleaves :
    (busy [.store 0x1001 [7]]).schedule = .store 0x1001#32 [7#8] :: [] ∧
    meetsWindow (busy []).cfg 0x1001#32 1 = false ∧ meetsWindow (busy []).cfg 0x4000003F#32 1 = true ∧
    meetsWindow (busy []).cfg 0x40000040#32 1 = false ∧ meetsWindow (busy []).cfg 0x3FFFFFFF#32 2 = true := by decide

theorem test_w_OwnWindowNotAdmitted :
    ∃ b : Nat, (0x3FFFFFFD#32).toNat ≤ b ∧ b < (0x3FFFFFFD#32).toNat + AccessSize.bytes .four ∧
      State.reset.cfg.npcBase.toNat ≤ b ∧ b < State.reset.cfg.npcBase.toNat + 64 := ⟨0x40000000, by decide⟩

theorem test_w_StraddlingAndMisalignedNotAdmitted :
    2 ^ 32 < (0xFFFFFFFD#32).toNat + AccessSize.bytes .four ∧ resetConfig.alignRequired = true ∧
    (0x1001#32).toNat % AccessSize.bytes .two ≠ 0 := by decide

theorem test_w_ByteOrderOfReads :
    admits State.reset.cfg 0x1000#32 .two .read = true ∧ admits State.reset.cfg 0x3FFC#32 .four .read = true := by decide

theorem test_w_WriteThenReadReturnsValue :
    ∃ m, Memory.wf State.reset.mem = true ∧ memWrite State.reset 0x3FFC#32 .four 0xDEADBEEF#32 = some m ∧
      admits State.reset.cfg 0x3FFC#32 .four .read = true := ⟨_, by decide, rfl, by decide⟩

theorem test_w_StepKeepsMemoryCanonical :
    ∃ t, Memory.wf (busy [.store 0x1001 [7, 0]]).mem = true ∧ step (busy [.store 0x1001 [7, 0]]) = .next t :=
  ⟨_, by decide, rfl⟩

/-- The reset state, and a state with an operation in flight, meet the lifecycle. -/
theorem test_w_StepKeepsLifecycle : ∃ t, Lifecycle (busy [.engine]) ∧ step (busy [.engine]) = .next t := by
  refine ⟨_, ⟨by unfold StatusLegal; decide, fun _ => ⟨.crc32, by decide, by decide⟩, ?_, ?_⟩, rfl⟩
  · unfold ResLegal; decide
  · unfold ResetLegal; decide

theorem test_w_StepKeepsParameters : ∃ t, step State.reset = .next t := ⟨_, rfl⟩

theorem test_w_OnlyHostWritesOperands :
    (∃ t, step (next (wrArg 2 5)) = .next t ∧ t.args ≠ (next (wrArg 2 5)).args) ∧
    (∃ t, step (busy [.assertReset]) = .next t ∧ t.args ≠ (busy [.assertReset]).args) :=
  ⟨⟨_, rfl, by decide⟩, ⟨_, rfl, by decide⟩⟩

/-- FEQ16 in flight, at the write of an index. -/
def atHit : State :=
  { State.accept .feq16 (.feq16 1 0 .hit) (idle ⟨0x3100#32, 0x3000#32, 7, 4, 0⟩ 0x3000#32 [5, 0, 7]) with
    schedule := [.engine] }

theorem test_w_OnlyFeq16WritesMemory :
    (∃ t, step (next (.store 0x1000 [7])) = .next t ∧ t.mem ≠ (next (.store 0x1000 [7])).mem) ∧
    (∃ t, step atHit = .next t ∧ t.mem ≠ atHit.mem) :=
  ⟨⟨_, rfl, by decide⟩, ⟨_, rfl, by decide⟩⟩

theorem test_w_NonStoringCommandFrame : ∃ t, Instr.fls ≠ .feq16 ∧ exec .fls State.reset = .next t := ⟨_, by decide, rfl⟩

/-- V1's operands, and an address outside the index array. -/
theorem test_w_Feq16Frame :
    ∃ t, exec .feq16 (idle ⟨0x3100#32, 0x3000#32, 7, 2, 0⟩ 0x3000#32 [5, 0, 7]) = .next t ∧
      ∀ c < 2, ∀ j < 2, 0x3104#32 ≠ elemAddr 0x3100#32 .two (BitVec.ofNat 32 c) + BitVec.ofNat 32 j :=
  ⟨_, rfl, by decide⟩

/-- Both quiet schedules. -/
theorem test_w_UndisturbedRunIsEngineTurns :
    (State.reset.status.busy = false ∧ present State.reset.cfg .fmin16 = true ∧ quiet State.reset = true ∧
      State.reset.resetAsserted = false) ∧
    ((scheduled [.wait, rdRes]).status.busy = false ∧ present (scheduled [.wait, rdRes]).cfg .crc32 = true ∧
      quiet (scheduled [.wait, rdRes]) = true ∧ (scheduled [.wait, rdRes]).resetAsserted = false) := by decide

theorem test_w_UndisturbedCommandEnds :
    (Ready .norm (scheduled [.wait]) ∧ ¬GcdEdge .norm (scheduled [.wait])) ∧
    (Ready .gcd (idle ⟨0x80000001#32, 6, 0, 0, 0⟩ 0 []) ∧ ¬GcdEdge .gcd (idle ⟨0x80000001#32, 6, 0, 0, 0⟩ 0 [])) := by
  decide

/-- The host reads a 0 last and then divides by it. -/
theorem test_w_EngineNeverStops :
    (lastRead { next (.falignDivide 5 6) with seen := [0] }).1 = 0 ∧
    step { next (.falignDivide 5 6) with seen := [0] } = .fault .divisionByZero ∧
    (lastRead { next (.falignFinish 5 6) with seen := [0] }).1 = 0 := ⟨by decide, rfl, by decide⟩

theorem test_w_OperationEnds :
    Lifecycle (busy []) ∧ (busy []).status.busy = true ∧ (busy []).resetAsserted = false ∧ quiet (busy []) = true ∧ quiet (busy [.wait]) = true ∧
    ∀ a b k, (busy []).work = .gcd a b k →
      (busy []).cfg.gcdMinPolicy = .unsignedMagnitude ∨ (a ≠ int32Min ∧ b ≠ int32Min) := by
  refine ⟨⟨by unfold StatusLegal; decide, fun _ => ⟨.crc32, by decide, by decide⟩, ?_, ?_⟩, by decide, by decide,
    by decide, by decide, fun a b k h => nomatch h⟩
  · unfold ResLegal; decide
  · unfold ResetLegal; decide

theorem test_w_GcdReturnsGreatestCommonDivisor :
    Ready .gcd (idle ⟨0x80000001#32, 0x7FFFFFFF#32, 0, 0, 0⟩ 0 []) ∧ 0x80000001#32 ≠ int32Min ∧
    0x7FFFFFFF#32 ≠ int32Min := by decide

theorem test_w_GcdUnsignedMagnitude :
    Ready .gcd { State.reset with cfg := { resetConfig with gcdMinPolicy := .unsignedMagnitude } } ∧
    { State.reset with cfg := { resetConfig with gcdMinPolicy := .unsignedMagnitude } }.cfg.gcdMinPolicy =
      .unsignedMagnitude := by decide

theorem test_w_GcdMinEdgeIsFree :
    Ready .gcd (idle ⟨0x80000000#32, 5, 0, 0, 0⟩ 0 []) ∧
    (idle ⟨0x80000000#32, 5, 0, 0, 0⟩ 0 []).cfg.gcdMinPolicy = .refuse ∧
    gcdA (idle ⟨0x80000000#32, 5, 0, 0, 0⟩ 0 []) = int32Min ∧ Ready .gcd (idle ⟨5, 0x80000000#32, 0, 0, 0⟩ 0 []) ∧
    gcdB (idle ⟨5, 0x80000000#32, 0, 0, 0⟩ 0 []) = int32Min := by decide

theorem test_w_GcdLaws : 0xFFFFFFF8#32 ≠ int32Min ∧ 20#32 ≠ int32Min ∧ 0xFFFFFFF8#32 ≠ 0 ∧ 20#32 ≠ 0 ∧
    ((4 : Nat) : Int) ∣ (0xFFFFFFF8#32).toInt ∧ ((4 : Nat) : Int) ∣ (20#32).toInt := by decide

/-- The bytes of "123456789" at 0x1000. -/
def digits (length : Word) : State :=
  idle ⟨0, 0x1000#32, length, 0, 0⟩ 0x1000#32 [0x31, 0x32, 0x33, 0x34, 0x35, 0x36, 0x37, 0x38, 0x39]

theorem test_w_Crc32ReturnsChecksum :
    Ready .crc32 (digits 9) ∧ Admitted (digits 9) (crcData (digits 9)) .one .read 9 ∧ (crcLength (digits 9)).toNat = 9 := by
  decide

theorem test_w_Crc32CheckValue :
    Ready .crc32 (digits 9) ∧ crcBase (digits 9) = 0 ∧ crcLength (digits 9) = 9 ∧
    Admitted (digits 9) (crcData (digits 9)) .one .read 9 ∧
    byteArray (digits 9) (crcData (digits 9)) 9 = [0x31, 0x32, 0x33, 0x34, 0x35, 0x36, 0x37, 0x38, 0x39] := by
  decide +kernel

theorem test_w_Crc32OfNothingIsBase :
    Ready .crc32 (idle ⟨0x12345678#32, 0xFFFFFFF0#32, 0, 0, 0⟩ 0 []) ∧
    crcLength (idle ⟨0x12345678#32, 0xFFFFFFF0#32, 0, 0, 0⟩ 0 []) = 0 := by decide

theorem test_w_Crc32Chains :
    ∃ t, Ready .crc32 (digits 9) ∧ 0#32 ≤ 9#32 ∧ 4#32 ≤ 9#32 ∧ 9#32 ≤ 9#32 ∧
      Admitted (digits 9) (crcData (digits 9)) .one .read (9#32).toNat ∧
      exec .crc32 { digits 9 with args := { (digits 9).args with arg2 := 4 } } = .next t :=
  ⟨_, by decide, by decide, by decide, by decide, by decide, rfl⟩

theorem test_w_FlsReturnsTopBitPosition :
    Ready .fls State.reset ∧ flsX State.reset = 0 ∧ flsX (idle ⟨1, 0, 0, 0, 0⟩ 0 []) = 1 ∧
    flsX (idle ⟨0x80000000#32, 0, 0, 0, 0⟩ 0 []) = 0x80000000#32 := by decide

theorem test_w_NormReturnsShiftCount :
    Ready .norm State.reset ∧ normVal State.reset = 0 ∧ normVal (idle ⟨0xFFFFFFFF#32, 0, 0, 0, 0⟩ 0 []) ≠ 0 := by decide

/-- V4: two of the four matches are asked for. -/
def searched (max : Word) : State :=
  idle ⟨0x3300#32, 0x3200#32, 7, 5, max⟩ 0x3200#32 [7, 0, 7, 0, 7, 0, 1, 0, 7, 0]

theorem test_w_Feq16WritesMatchingIndices :
    Ready .feq16 (searched 2) ∧
    [7#16, 7, 7, 1, 7] = halfArray (searched 2) (feqVec (searched 2)) (lengthOf (feqLength (searched 2))) ∧
    indicesOf 7#16 2#32 [7#16, 7, 7, 1, 7] = [0, 1] ∧ scannedOf 7#16 2#32 [7#16, 7, 7, 1, 7] = 2 ∧
    indicesOf 7#16 0#32 [7#16, 7, 7, 1, 7] = [0, 1, 2, 4] ∧ scannedOf 7#16 9#32 [7#16, 7, 7, 1, 7] = 5 ∧
    Admitted (searched 2) (feqVec (searched 2)) .two .read 2 ∧
    Admitted (searched 2) (feqOut (searched 2)) (idxSize (searched 2).cfg) .write 2 ∧
    Safety.Disjoint (searched 2).cfg (feqOut (searched 2)) 2 (feqVec (searched 2)) 2 := by decide +kernel

theorem test_w_Feq16OfNothingReturnsZero :
    Ready .feq16 (idle ⟨0x3300#32, 0x3200#32, 7, 0xFFFFFFFF#32, 0⟩ 0 []) ∧
    (feqLength (idle ⟨0x3300#32, 0x3200#32, 7, 0xFFFFFFFF#32, 0⟩ 0 [])).toInt ≤ 0 ∧
    (feqLength (idle ⟨0x3300#32, 0x3200#32, 7, 0, 0⟩ 0 [])).toInt ≤ 0 := by decide

/-- V9c: the third read lies outside the RAM. -/
def overEnd : State := idle ⟨0x3300#32, 0x3FFC#32, 7, 4, 0⟩ 0x3FFC#32 [7, 0, 7, 0]

theorem test_w_Feq16ReadFaultKeepsEarlierWrites :
    Ready .feq16 overEnd ∧ 2 < lengthOf (feqLength overEnd) ∧ [7#16, 7] = halfArray overEnd (feqVec overEnd) 2 ∧
    stopsEarly (feqN overEnd) (feqMax overEnd) [7#16, 7] = false ∧ Admitted overEnd (feqVec overEnd) .two .read 2 ∧
    admits overEnd.cfg (elemAddr (feqVec overEnd) .two (BitVec.ofNat 32 2)) .two .read = false ∧
    Admitted overEnd (feqOut overEnd) (idxSize overEnd.cfg) .write (matchesOf (feqN overEnd) [7#16, 7]).length ∧
    Safety.Disjoint overEnd.cfg (feqOut overEnd) (matchesOf (feqN overEnd) [7#16, 7]).length (feqVec overEnd) 2 := by
  decide +kernel

/-- The second index write lies outside the RAM. -/
def writesOverEnd : State := idle ⟨0x3FFE#32, 0x3200#32, 7, 4, 0⟩ 0x3200#32 [7, 0, 7, 0, 7, 0, 7, 0]

theorem test_w_Feq16WriteFaultStoresNothing :
    Ready .feq16 writesOverEnd ∧ 1 < lengthOf (feqLength writesOverEnd) ∧
    [7#16] = halfArray writesOverEnd (feqVec writesOverEnd) 1 ∧
    stopsEarly (feqN writesOverEnd) (feqMax writesOverEnd) [7#16] = false ∧
    Admitted writesOverEnd (feqVec writesOverEnd) .two .read 2 ∧
    (elemValue writesOverEnd (feqVec writesOverEnd) .two 1).setWidth 16 = feqN writesOverEnd ∧
    Admitted writesOverEnd (feqOut writesOverEnd) (idxSize writesOverEnd.cfg) .write 1 ∧
    (matchesOf (feqN writesOverEnd) [7#16]).length = 1 ∧
    admits writesOverEnd.cfg (elemAddr (feqOut writesOverEnd) (idxSize writesOverEnd.cfg) (BitVec.ofNat 32 1))
      (idxSize writesOverEnd.cfg) .write = false ∧
    Safety.Disjoint writesOverEnd.cfg (feqOut writesOverEnd) 1 (feqVec writesOverEnd) 2 := by decide +kernel

/-- A16 at 0x3000 and a scan of `length` elements. -/
def scanned (length : Word) : State :=
  idle ⟨0x3000#32, length, 0, 0, 0⟩ 0x3000#32 [0x05, 0x00, 0xFD, 0xFF, 0x09, 0x00, 0xFD, 0xFF]

theorem test_w_Fmin16ReturnsMinimum :
    Ready .fmin16 (scanned 4) ∧ 1 ≤ (scanLength (scanned 4)).toInt ∧
    Admitted (scanned 4) (scanVec (scanned 4)) .two .read (lengthOf (scanLength (scanned 4))) := by decide +kernel

theorem test_w_Fmin16OfNothingIsFree :
    Ready .fmin16 (scanned 0) ∧ (scanLength (scanned 0)).toInt ≤ 0 ∧
    admits (scanned 0).cfg (scanVec (scanned 0)) .two .read = true ∧
    Ready .fmin16 (idle ⟨0x3001#32, 0, 0, 0, 0⟩ 0 []) ∧
    (scanLength (idle ⟨0x3001#32, 0, 0, 0, 0⟩ 0 [])).toInt ≤ 0 ∧
    admits (idle ⟨0x3001#32, 0, 0, 0, 0⟩ 0 []).cfg (scanVec (idle ⟨0x3001#32, 0, 0, 0, 0⟩ 0 [])) .two .read = false := by
  decide

theorem test_w_Fmaxa32ReturnsSaturatedMaximum :
    Ready .fmaxa32 (scanned 2) ∧ 1 ≤ (scanLength (scanned 2)).toInt ∧
    Admitted (scanned 2) (scanVec (scanned 2)) .four .read (lengthOf (scanLength (scanned 2))) := by decide +kernel

theorem test_w_Fmaxa32OfNothingIsFree :
    Ready .fmaxa32 (scanned 0xFFFFFFFF#32) ∧ (scanLength (scanned 0xFFFFFFFF#32)).toInt ≤ 0 ∧
    admits (scanned 0).cfg (scanVec (scanned 0)) .four .read = true ∧
    Ready .fmaxa32 (idle ⟨0x3002#32, 0, 0, 0, 0⟩ 0 []) ∧
    (scanLength (idle ⟨0x3002#32, 0, 0, 0, 0⟩ 0 [])).toInt ≤ 0 ∧
    admits (idle ⟨0x3002#32, 0, 0, 0, 0⟩ 0 []).cfg (scanVec (idle ⟨0x3002#32, 0, 0, 0, 0⟩ 0 [])) .four .read = false := by
  decide

/-- Three scans that run over the end of the RAM. -/
theorem test_w_RefusedReadEndsScan :
    (Ready .crc32 (idle ⟨0, 0x3FFE#32, 4, 0, 0⟩ 0 []) ∧ 2 < (crcLength (idle ⟨0, 0x3FFE#32, 4, 0, 0⟩ 0 [])).toNat ∧
      Admitted (idle ⟨0, 0x3FFE#32, 4, 0, 0⟩ 0 []) 0x3FFE#32 .one .read 2 ∧
      admits resetConfig (elemAddr 0x3FFE#32 .one (BitVec.ofNat 32 2)) .one .read = false) ∧
    (Ready .fmin16 (idle ⟨0x3FFE#32, 2, 0, 0, 0⟩ 0 []) ∧
      1 < max 1 (lengthOf (scanLength (idle ⟨0x3FFE#32, 2, 0, 0, 0⟩ 0 []))) ∧
      Admitted (idle ⟨0x3FFE#32, 2, 0, 0, 0⟩ 0 []) 0x3FFE#32 .two .read 1 ∧
      admits resetConfig (elemAddr 0x3FFE#32 .two (BitVec.ofNat 32 1)) .two .read = false) ∧
    (Ready .fmaxa32 (idle ⟨0x4000#32, 0, 0, 0, 0⟩ 0 []) ∧
      0 < max 1 (lengthOf (scanLength (idle ⟨0x4000#32, 0, 0, 0, 0⟩ 0 []))) ∧
      Admitted (idle ⟨0x4000#32, 0, 0, 0, 0⟩ 0 []) 0x4000#32 .four .read 0 ∧
      admits resetConfig (elemAddr 0x4000#32 .four (BitVec.ofNat 32 0)) .four .read = false) := by decide +kernel

theorem test_w_FalignReturnsLeastCommonMultiple :
    (next (.falign 16 6 20)).status.busy = false ∧ (next (.falign 16 6 20)).resetAsserted = false ∧
    (next (.falign 16 6 20)).schedule = .falign 16#32 6#32 20#32 :: [] ∧ 0 < (16#32).toInt ∧ 0 < (6#32).toInt ∧
    0 < (20#32).toInt ∧ 4 = (16#32).toNat / Nat.gcd (16#32).toNat (20#32).toNat ∧ (6#32).toNat * 4 < 2 ^ 32 := by
  decide

theorem test_w_FalignFaultsOnZeroDivisor :
    ((next (.falign 0 2 0)).status.busy = false ∧ (next (.falign 0 2 0)).resetAsserted = false ∧
      (next (.falign 0 2 0)).schedule = .falign 0#32 2#32 0#32 :: [] ∧ 0 ≤ (2#32).toInt ∧ 0 ≤ (0#32).toInt ∧
      (0#32 = 0 ∨ 2#32 = 0)) ∧
    ((next (.falign 0 0 5)).schedule = .falign 0#32 0#32 5#32 :: [] ∧ 0 ≤ (0#32).toInt ∧ 0 ≤ (5#32).toInt ∧
      (5#32 = 0 ∨ 0#32 = 0)) ∧
    ((next (.falign 0x7FFFFFFF 0x7FFFFFFE 1)).schedule = .falign 0x7FFFFFFF#32 0x7FFFFFFE#32 1#32 :: [] ∧
      0 < (0x7FFFFFFF#32).toInt ∧ 0 < (0x7FFFFFFE#32).toInt ∧ 0 < (1#32).toInt ∧
      2 ^ 32 ≤ (0x7FFFFFFE#32).toNat * ((0x7FFFFFFF#32).toNat / Nat.gcd (0x7FFFFFFF#32).toNat (1#32).toNat)) := by
  decide

end Sys2Proof.Tests
end

section
/-! The parameters of an instance are never changed at run time (00_scope.md R5, R6): one lemma for each kind of turn,
and the step assembled from them. -/

namespace Sys2Proof.Machine

open Sys2Proof.Safety

/-- The engine's turn keeps what an engine step of a unit keeps (40_command_lifecycle.md R94). -/
theorem engineTurn_kept (s : State) : Kept s (engineTurn s) := by
  obtain h | ⟨i, -, -, -, h⟩ := engineTurn_cases s
  · rw [h]
    exact ⟨rfl, rfl, rfl, rfl, rfl, rfl⟩
  · exact h.kept

@[simp] theorem engineTurn_cfg (s : State) : (engineTurn s).cfg = s.cfg := (engineTurn_kept s).1

@[simp] theorem writeReg_cfg (r : Reg) (v : Word) (s : State) : (writeReg r v s).cfg = s.cfg := by
  obtain h | ⟨-, h, -⟩ | ⟨-, -, h⟩ | ⟨-, h⟩ | ⟨i, -, -, h⟩ := writeReg_cases r v s <;> simp [h]

@[simp] theorem readReg_cfg (r : Reg) (s : State) : (readReg r s).cfg = s.cfg := by
  obtain ⟨v, d, h⟩ := readReg_eq r s
  rw [h]

/-- No turn but the issue of a command changes the parameters. -/
theorem OtherTurn.cfg_eq {s t : State} (h : OtherTurn s t) : t.cfg = s.cfg := by
  cases h <;> simp

/-- A command that is issued is dropped, rejected, run to its end, or accepted: none of these changes the parameters. -/
theorem exec_cfg {i : Instr} {s t : State} (h : exec i s = .next t) : t.cfg = s.cfg := by
  obtain ⟨-, e⟩ | ⟨-, -, e⟩ | ⟨start, fuel, -, -, e⟩ | ⟨start, -, -, -, -, e⟩ := exec_cases i s <;>
    rw [e] at h <;> cases h
  · exact State.overrun_cfg s
  · exact State.raise_unitAbsent_cfg s
  · exact (runTurns_kept (unitTurn_step i) fuel _).1
  · exact State.accept_cfg i start s

/-- The state a command is issued in has the parameters of the state before its turn. -/
theorem fetch_cfg {s t : State} {i : Instr} (h : fetch s = some (i, t)) : t.cfg = s.cfg := by
  obtain ⟨off, n, v, rest, -, -, -, -, -, rfl⟩ := (fetch_eq_some_iff s i t).1 h
  rfl

/-- Settles O29: a step is the issue of a command or another turn, and neither changes the parameters. -/
theorem stepKeepsParameters : Obligations.StepKeepsParameters := by
  intro s t h
  obtain ⟨i, u, hf, he⟩ | ⟨-, ho⟩ := step_cases h
  · exact (exec_cfg he).trans (fetch_cfg hf)
  · exact (otherTurn_cases ho).cfg_eq

end Sys2Proof.Machine
end

section
/-! OVR as a field of its own (10_state.md R19): the update that sets or clears it and nothing else, and what
does not see it. An overrun is that update, and so is a write to STATUS. -/

namespace Sys2Proof.Machine

/-- The state with another value of OVR. -/
def State.withOvr (b : Bool) (s : State) : State := { s with status := { s.status with ovr := b } }

@[simp] theorem State.withOvr_cfg (b : Bool) (s : State) : (s.withOvr b).cfg = s.cfg := rfl
@[simp] theorem State.withOvr_work (b : Bool) (s : State) : (s.withOvr b).work = s.work := rfl
@[simp] theorem State.withOvr_draws (b : Bool) (s : State) : (s.withOvr b).draws = s.draws := rfl
@[simp] theorem State.withOvr_busy (b : Bool) (s : State) : (s.withOvr b).status.busy = s.status.busy := rfl
@[simp] theorem State.x_withOvr (b : Bool) (s : State) (i : Fin 5) : State.x (s.withOvr b) i = State.x s i := rfl
@[simp] theorem quiet_withOvr (b : Bool) (s : State) : quiet (s.withOvr b) = quiet s := rfl
@[simp] theorem memRead_withOvr (b : Bool) (s : State) (a : Word) (n : AccessSize) :
    memRead (s.withOvr b) a n = memRead s a n := rfl
@[simp] theorem memWrite_withOvr (b : Bool) (s : State) (a : Word) (n : AccessSize) (v : Word) :
    memWrite (s.withOvr b) a n v = memWrite s a n v := rfl

end Sys2Proof.Machine
end

section
/-! The lifecycle of a command (10_state.md R13, R16 to R18, R25, 70_reset_and_hazards.md R220): the states that meet
the invariant, what one engine step does to it, and the proof that every turn keeps it. -/

namespace Sys2Proof.Safety

open Sys2Proof.Machine

/-! ### States that meet the lifecycle -/

/-- An engine with one command in flight. -/
theorem lifecycle_of_flight {s : State} {i : Instr} (hb : s.status.busy = true) (hd : s.status.done = false)
    (he : s.status.err = 0) (hr : s.resOpen = true) (ha : s.resetAsserted = false) (ho : s.opl = opcodeOf i)
    (hw : belongs i s.work = true) : Lifecycle s := by
  refine ⟨?_, fun _ => ⟨i, ho, hw⟩, ⟨fun _ => hr, fun _ => hr⟩, ?_⟩
  · simp [StatusLegal, hb, hd, he]
  · simp [ResetLegal, ha]

/-- An idle engine whose last command has ended with an outcome code, BUS_FAULT only with RES left free. -/
theorem lifecycle_of_ended {s : State} (hb : s.status.busy = false) (hd : s.status.done = true)
    (he : s.status.err ≤ 3) (hr : s.status.err = 3 → s.resOpen = true) (ha : s.resetAsserted = false) :
    Lifecycle s := by
  refine ⟨⟨?_, he, ?_, fun _ => hd⟩, ?_, ⟨?_, hr⟩, ?_⟩
  · simp [hb]
  · simp [hb]
  · simp [FlightLegal, hb]
  · simp [hb]
  · simp [ResetLegal, ha]

/-- The engine as reset leaves it, whether or not reset is still asserted. -/
theorem lifecycle_of_cleared {s : State} (hs : s.status = State.reset.status) (hr : s.resOpen = true) :
    Lifecycle s := by
  refine ⟨?_, ?_, ⟨fun _ => hr, fun _ => hr⟩, fun _ => ⟨hs, hr⟩⟩
  · simp [hs, StatusLegal, State.reset]
  · simp [hs, FlightLegal, State.reset]

/-- The lifecycle speaks of STATUS, OPL, the working registers, whether RES is free, and the reset input only. -/
theorem Lifecycle.congr {s t : State} (h : Lifecycle s) (hs : t.status = s.status) (ho : t.opl = s.opl)
    (hw : t.work = s.work) (hr : t.resOpen = s.resOpen) (ha : t.resetAsserted = true → s.resetAsserted = true) :
    Lifecycle t := by
  obtain ⟨hS, hF, hR, hA⟩ := h
  simp only [Lifecycle, StatusLegal, FlightLegal, ResLegal, ResetLegal, hs, ho, hw, hr]
  exact ⟨hS, hF, hR, fun h => hA (ha h)⟩

/-- Out of reset the lifecycle does not depend on OVR. -/
theorem Lifecycle.withOvr {s : State} (h : Lifecycle s) (ha : s.resetAsserted = false) (b : Bool) :
    Lifecycle (s.withOvr b) := by
  obtain ⟨hS, hF, hR, -⟩ := h
  exact ⟨hS, hF, hR, fun h => absurd (ha.symm.trans h) Bool.false_ne_true⟩

/-- While an operation is in flight the flags are those of acceptance, RES is free and reset is not asserted. -/
theorem Lifecycle.in_flight {s : State} (h : Lifecycle s) (hb : s.status.busy = true) :
    s.status.done = false ∧ s.status.err = 0 ∧ s.resOpen = true ∧ s.resetAsserted = false := by
  obtain ⟨⟨hbd, -, he, -⟩, -, ⟨hr, -⟩, hA⟩ := h
  refine ⟨by simpa [hb] using hbd, he hb, hr hb, ?_⟩
  by_contra ha
  obtain ⟨hs, -⟩ := hA (by simpa using ha)
  simp [hs, State.reset] at hb

/-- Taking a turn from the schedule keeps the lifecycle. -/
theorem Lifecycle.withSchedule {s : State} (h : Lifecycle s) (turns : List Turn) :
    Lifecycle { s with schedule := turns } :=
  h.congr rfl rfl rfl rfl id

/-- Acceptance out of reset puts the command in flight (40_command_lifecycle.md R93). -/
theorem lifecycle_accept {i : Instr} {start : Work} {s : State} (hw : belongs i start = true)
    (ha : s.resetAsserted = false) : Lifecycle (State.accept i start s) :=
  lifecycle_of_flight rfl rfl rfl rfl ha rfl hw

end Sys2Proof.Safety

namespace Sys2Proof.Machine

open Sys2Proof.Safety

/-! ### The engine -/

/-- An engine step either leaves the operation in flight under its opcode or ends it. -/
theorem EngineStep.opl_eq {i : Instr} {s t : State} (h : EngineStep i s t) (hb : t.status.busy = true) :
    t.opl = s.opl := by
  cases h with
  | stay | draw | advance | write => rfl
  | complete | completeAny | edge | busFault => exact absurd hb Bool.false_ne_true

/-- An engine step of the command in flight keeps the lifecycle: the command goes on with its own working registers, or
ends with an outcome code (40_command_lifecycle.md R94, R95). -/
theorem EngineStep.lifecycle {i : Instr} {s t : State} (h : EngineStep i s t) (hl : Lifecycle s)
    (hb : s.status.busy = true) (ho : s.opl = opcodeOf i) : Lifecycle t := by
  obtain ⟨hd, he, hr, ha⟩ := hl.in_flight hb
  cases h with
  | stay => exact hl
  | draw _ hw => exact lifecycle_of_flight hb hd he hr ha ho hw
  | advance _ hw => exact lifecycle_of_flight hb hd he hr ha ho hw
  | write _ _ _ _ _ _ _ hw => exact lifecycle_of_flight hb hd he hr ha ho hw
  | complete | completeAny | edge | busFault => exact lifecycle_of_ended rfl rfl (by simp) (by simp) ha

/-- A run of the command in flight keeps the lifecycle. -/
theorem runTurns_lifecycle {i : Instr} {s : State} (fuel : Nat) (hl : Lifecycle s) (ho : s.opl = opcodeOf i) :
    Lifecycle (runTurns (unitTurn i) fuel s) := by
  refine (runTurns_invariant (unitTurn_step i)
    (fun u => Lifecycle u ∧ (u.status.busy = true → u.opl = opcodeOf i)) ?_ fuel s ⟨hl, fun _ => ho⟩).1
  rintro s t h hb ⟨hl, ho⟩
  exact ⟨h.lifecycle hl hb (ho hb), fun ht => (h.opl_eq ht).trans (ho hb)⟩

/-- The engine's turn keeps the lifecycle. -/
theorem engineTurn_lifecycle {s : State} (h : Lifecycle s) : Lifecycle (engineTurn s) := by
  obtain e | ⟨i, hb, -, ho, e⟩ := engineTurn_cases s
  · rwa [e]
  · exact e.lifecycle h hb ho

/-! ### Commands and the other turns -/

/-- A command written out of reset keeps the lifecycle: it is dropped, rejected, run to its end, or put in flight
(40_command_lifecycle.md R92). -/
theorem exec_lifecycle {i : Instr} {s t : State} (hl : Lifecycle s) (ha : s.resetAsserted = false)
    (h : exec i s = .next t) : Lifecycle t := by
  obtain ⟨-, e⟩ | ⟨hb, -, e⟩ | ⟨start, fuel, hw, -, e⟩ | ⟨start, hw, -, -, -, e⟩ := exec_cases i s <;>
    rw [e] at h <;> cases h
  · exact hl.withOvr ha true
  · exact lifecycle_of_ended hb rfl (by simp) (by simp) ha
  · exact runTurns_lifecycle fuel (lifecycle_accept hw ha) rfl
  · exact lifecycle_accept hw ha

/-- A register write out of reset keeps the lifecycle. -/
theorem writeReg_lifecycle {s : State} (h : Lifecycle s) (ha : s.resetAsserted = false) (r : Reg) (v : Word) :
    Lifecycle (writeReg r v s) := by
  obtain e | ⟨-, e, -⟩ | ⟨-, hb, e⟩ | ⟨-, e⟩ | ⟨i, -, -, e⟩ := writeReg_cases r v s <;> rw [e]
  · exact h
  · exact h.withOvr ha true
  · exact lifecycle_of_ended hb rfl (by simp) (by simp) ha
  · exact h.withOvr ha _
  · exact h.congr rfl rfl rfl rfl id

/-- A register read keeps the lifecycle. -/
theorem readReg_lifecycle {s : State} (h : Lifecycle s) (r : Reg) : Lifecycle (readReg r s) := by
  obtain ⟨v, d, e⟩ := readReg_eq r s
  rw [e]
  exact h.congr rfl rfl rfl rfl id

/-- A turn that issues no command keeps the lifecycle. -/
theorem OtherTurn.lifecycle {s t : State} (h : OtherTurn s t) (hl : Lifecycle s) : Lifecycle t := by
  cases h with
  | alone | polls => exact engineTurn_lifecycle hl
  | engine rest => exact engineTurn_lifecycle (hl.withSchedule rest)
  | waits => exact hl
  | write _ _ _ rest _ hr => exact writeReg_lifecycle (hl.withSchedule rest) hr _ _
  | read _ _ rest => exact readReg_lifecycle (hl.withSchedule rest) _
  | assertReset => exact lifecycle_of_cleared rfl rfl
  | releaseReset => exact hl.congr rfl rfl rfl rfl (fun h => absurd h Bool.false_ne_true)
  | waited | dropped | store | load | falignBegin | falignDivide | falignFinish =>
    exact hl.congr rfl rfl rfl rfl id

/-- Settles O28: a step is a command written out of reset or another turn, and each keeps the invariant. -/
theorem stepKeepsLifecycle : Obligations.StepKeepsLifecycle := by
  intro s t hl h
  obtain ⟨i, u, hf, he⟩ | ⟨-, ho⟩ := step_cases h
  · obtain ⟨_, _, _, rest, -, ha, -, -, -, rfl⟩ := (fetch_eq_some_iff s i u).1 hf
    exact exec_lifecycle (hl.withSchedule rest) ha he
  · exact (otherTurn_cases ho).lifecycle hl

/-- Settles O26: no byte is listed at reset, and the registers are the cleared ones. -/
theorem resetMeetsInvariants : Obligations.ResetMeetsInvariants :=
  ⟨rfl, lifecycle_of_cleared rfl rfl⟩

end Sys2Proof.Machine
end

section
/-! The register window (10_state.md R15, R20 to R22, R29, R30): which register an offset names, what a step does whose
turn is a register access, and the words that STATUS and CAP read as. -/

namespace Sys2Proof.Machine

/-! ### Offsets -/

theorem regOf_eq_cmd_iff (off : BitVec 6) : regOf off = .cmd ↔ off = 0x00#6 := by
  revert off
  decide

theorem regOf_eq_status_iff (off : BitVec 6) : regOf off = .status ↔ off = 0x04#6 := by
  revert off
  decide

theorem regOf_eq_arg_iff (off : BitVec 6) (i : Fin 5) : regOf off = .arg i ↔ off = argOffset i := by
  revert off i
  decide

theorem regOf_argOffset (i : Fin 5) : regOf (argOffset i) = .arg i := (regOf_eq_arg_iff _ i).2 rfl

theorem regOf_reserved {off : BitVec 6} (h : 0x24#6 ≤ off) : regOf off = .reserved := by
  revert off
  decide

/-- The accesses that have a defined effect (R30). -/
theorem registerAccessWf_iff (off : BitVec 6) (n : AccessSize) :
    registerAccessWf off n = true ↔ n = .four ∧ off &&& 3#6 = 0#6 := by
  simp [registerAccessWf]

theorem registerAccessWf_argOffset (i : Fin 5) : registerAccessWf (argOffset i) .four = true := by
  revert i
  decide

/-! ### Steps whose turn is a register access -/

/-- The write of a command's word to CMD. -/
theorem step_write_command {s : State} {off : BitVec 6} {n : AccessSize} {v : Word} {i : Instr} {rest : List Turn}
    (ha : s.resetAsserted = false) (hs : s.schedule = .write off n v :: rest) (hw : registerAccessWf off n = true)
    (hr : regOf off = .cmd) (hd : decode v = .ok i) : step s = exec i { s with schedule := rest } := by
  have hf := (fetch_eq_some_iff s i _).2 ⟨off, n, v, rest, hs, ha, hw, hr, hd, rfl⟩
  simp only [step, hf]

/-- A turn that is no command's word written to CMD is left to `otherTurn`. -/
theorem step_eq_otherTurn {s : State}
    (h : ∀ off n v rest i, s.schedule = .write off n v :: rest → registerAccessWf off n = true → regOf off = .cmd →
      decode v ≠ .ok i) : step s = otherTurn s := by
  have hf : fetch s = none := by
    refine Option.eq_none_iff_forall_ne_some.2 fun p hp => ?_
    obtain ⟨off, n, v, rest, hs, -, hw, hr, hd, -⟩ := (fetch_eq_some_iff s p.1 p.2).1 hp
    exact h off n v rest p.1 hs hw hr hd
  simp only [step, hf]

/-- A write that starts no command: to another register than CMD, or of a word that is no command. -/
theorem step_write {s : State} {off : BitVec 6} {n : AccessSize} {v : Word} {rest : List Turn}
    (ha : s.resetAsserted = false) (hs : s.schedule = .write off n v :: rest) (hw : registerAccessWf off n = true)
    (hr : regOf off = .cmd → ∀ i, decode v ≠ .ok i) :
    step s = .next (writeReg (regOf off) v { s with schedule := rest }) := by
  rw [step_eq_otherTurn]
  · simp [otherTurn, hs, hostWrite, ha, hw]
  · intro off' n' v' rest' i hs' _ hr'
    rw [hs] at hs'
    cases hs'
    exact hr hr' i

theorem step_read {s : State} {off : BitVec 6} {n : AccessSize} {rest : List Turn} (ha : s.resetAsserted = false)
    (hs : s.schedule = .read off n :: rest) (hw : registerAccessWf off n = true) :
    step s = .next (readReg (regOf off) { s with schedule := rest }) := by
  rw [step_eq_otherTurn (by simp [hs])]
  simp [otherTurn, hs, hostRead, ha, hw]

theorem step_write_refused {s : State} {off : BitVec 6} {n : AccessSize} {v : Word} {rest : List Turn}
    (ha : s.resetAsserted = false) (hs : s.schedule = .write off n v :: rest) (hw : registerAccessWf off n = false) :
    step s = .refused .registerAccess := by
  rw [step_eq_otherTurn]
  · simp [otherTurn, hs, hostWrite, ha, hw]
  · intro off' n' v' rest' i hs' hw'
    rw [hs] at hs'
    cases hs'
    exact absurd (hw.symm.trans hw') Bool.false_ne_true

theorem step_read_refused {s : State} {off : BitVec 6} {n : AccessSize} {rest : List Turn}
    (ha : s.resetAsserted = false) (hs : s.schedule = .read off n :: rest) (hw : registerAccessWf off n = false) :
    step s = .refused .registerAccess := by
  rw [step_eq_otherTurn (by simp [hs])]
  simp [otherTurn, hs, hostRead, ha, hw]

/-- A command written while BUSY = 1 is dropped and sets OVR (40_command_lifecycle.md R92 case 1). -/
theorem exec_busy {i : Instr} {s : State} (hb : s.status.busy = true) : exec i s = .next s.overrun := by
  obtain ⟨start, fuel, -, e⟩ := exec_eq_issue i s
  simp [e, issue, hb]

/-- A write to CMD or to an operand register while BUSY = 1 is dropped and sets OVR, whatever the word written is
(40_command_lifecycle.md R91, R92). -/
theorem step_write_overrun {s : State} {off : BitVec 6} {n : AccessSize} {v : Word} {rest : List Turn}
    (ha : s.resetAsserted = false) (hb : s.status.busy = true) (hs : s.schedule = .write off n v :: rest)
    (hw : registerAccessWf off n = true) (hr : regOf off = .cmd ∨ ∃ i, regOf off = .arg i) :
    step s = .next (State.overrun { s with schedule := rest }) := by
  obtain hr | ⟨i, hr⟩ := hr
  · obtain ⟨-, hd⟩ | ⟨i, -, -, hd⟩ | ⟨-, -, hd⟩ := decode_cases v
    · rw [step_write ha hs hw (by simp [hd]), hr]
      simp [writeReg, writeIllegal, hb]
    · rw [step_write_command ha hs hw hr hd]
      exact exec_busy hb
    · rw [step_write ha hs hw (by simp [hd]), hr]
      simp [writeReg, writeIllegal, hb]
  · rw [step_write ha hs hw (by simp [hr]), hr]
    simp [writeReg, hb]

/-- Settles O11: a read leaves all but the host's data and the count of free values as it was. -/
theorem registerReadHasNoEffect : Obligations.RegisterReadHasNoEffect := by
  refine ⟨fun s off rest ha ho hs => ?_, fun s rest ha hs => step_read ha hs rfl⟩
  obtain ⟨v, d, e⟩ := readReg_eq (regOf off) { s with schedule := rest }
  exact ⟨v, d, by rw [step_read ha hs ((registerAccessWf_iff _ _).2 ⟨rfl, ho⟩), e]⟩

/-- Settles O12: an aligned read is `readReg` of the register its offset names. -/
theorem registerReadValues : Obligations.RegisterReadValues := by
  intro s off rest ha hs
  refine ⟨?_, ?_, ?_, ?_, ?_, ?_⟩
  · rintro rfl
    exact step_read ha hs rfl
  · rintro rfl ho
    rw [step_read ha hs rfl]
    simp [regOf, readReg, readRes, ho, State.returnData]
  · rintro rfl ho
    rw [step_read ha hs rfl]
    simp [regOf, readReg, readRes, ho, State.returnData]
  · rintro rfl
    exact step_read ha hs rfl
  · rintro i rfl
    rw [step_read ha hs (registerAccessWf_argOffset i), regOf_argOffset]
    rfl
  · intro hoff ho
    rw [step_read ha hs ((registerAccessWf_iff _ _).2 ⟨rfl, ho⟩), regOf_reserved hoff]
    rfl

/-- Settles O15: such an access is not well formed, so the host's turn refuses it. -/
theorem nonWordRegisterAccessRefused : Obligations.NonWordRegisterAccessRefused := by
  intro s off n v rest ha hn
  have hw : registerAccessWf off n = false := by
    rw [Bool.eq_false_iff, Ne, registerAccessWf_iff]
    tauto
  exact ⟨fun hs => step_write_refused ha hs hw, fun hs => step_read_refused ha hs hw⟩

/-! ### The STATUS and CAP words -/

/-- The bits of STATUS that have no storage read as 0 (R20). -/
theorem statusWord_reserved (t : Status) {k : Nat} (h : k = 2 ∨ k = 3 ∨ k = 7 ∨ 9 ≤ k) :
    (statusWord t).getLsbD k = false := by
  obtain h | h | h | h := h
  all_goals simp (disch := omega) only [statusWord, BitVec.getLsbD_append, BitVec.getLsbD_zero, if_neg, if_pos]

/-- ERR is bits 6:4 of STATUS (R15). -/
theorem statusWord_err (t : Status) : (statusWord t).extractLsb' 4 3 = t.err := by
  refine BitVec.eq_of_getLsbD_eq fun j hj => ?_
  have h4 : 4 + j - 1 - 1 - 2 = j := by omega
  rw [BitVec.getLsbD_extractLsb']
  simp (disch := omega) only [statusWord, BitVec.getLsbD_append, if_neg, if_pos, h4]
  simp [hj]

/-- The one-bit fields of STATUS (R15). -/
theorem statusWord_flags (t : Status) :
    (statusWord t).getLsbD 0 = t.busy ∧ (statusWord t).getLsbD 1 = t.done ∧ (statusWord t).getLsbD 8 = t.ovr := by
  simp only [statusWord, BitVec.getLsbD_append]
  simp

/-- Bit `n` of CAP is the presence of the command with opcode `n` (R21). -/
theorem capWord_opcodeOf (c : Config) (i : Instr) : (capWord c).getLsbD (opcodeOf i).toNat = present c i := by
  simp only [capWord, BitVec.getLsbD_append]
  cases i <;> simp [opcodeOf]

/-- The platform parameters that CAP shows (R21). -/
theorem capWord_platform (c : Config) :
    (capWord c).getLsbD 16 = indexIsFour c ∧ (capWord c).getLsbD 17 = c.bigEndian := by
  simp only [capWord, BitVec.getLsbD_append]
  simp

theorem capWord_reserved (c : Config) {k : Nat} (h : k = 0 ∨ (8 ≤ k ∧ k ≤ 15) ∨ 18 ≤ k) :
    (capWord c).getLsbD k = false := by
  obtain h | h | h := h
  all_goals simp (disch := omega) only [capWord, BitVec.getLsbD_append, BitVec.getLsbD_zero, if_neg, if_pos]

theorem indexIsFour_iff (c : Config) : indexIsFour c = true ↔ c.idxBytes = .four := by
  cases h : c.idxBytes <;> simp [indexIsFour, h]

/-- Settles O13: the word field by field; a write to STATUS is the update of OVR alone. -/
theorem statusWordLayout : Obligations.StatusWordLayout := by
  refine ⟨fun t => ?_, fun s t w rest ha hs h => ?_⟩
  · obtain ⟨hb, hd, ho⟩ := statusWord_flags t
    exact ⟨hb, hd, statusWord_err t, ho, fun _ => statusWord_reserved t⟩
  · rw [step_write ha hs rfl (by simp [regOf])] at h
    cases h
    rfl

/-- Settles O14: the word bit by bit, and its four values in R21. -/
theorem capReportsInstance : Obligations.CapReportsInstance := by
  refine ⟨fun c => ?_, fun s rest ha hs => step_read ha hs rfl,
    fun s v rest ha hs => step_write ha hs rfl (by simp [regOf])⟩
  obtain ⟨hi, he⟩ := capWord_platform c
  refine ⟨capWord_opcodeOf c, rfl, rfl, rfl, rfl, rfl, rfl, rfl, hi ▸ indexIsFour_iff c, he,
    fun _ => capWord_reserved c, fun h2 hle => ⟨?_, ?_, ?_, ?_⟩⟩
  all_goals
    intro hn hv
    simp [capWord, present, indexIsFour, h2, hle, hn, hv]

/-- Settles O18: the reset state is a literal, and each part is read off it. -/
theorem resetStateIsIdle : Obligations.ResetStateIsIdle :=
  ⟨rfl, rfl, rfl, rfl, rfl, rfl⟩

end Sys2Proof.Machine
end

section
/-! What a command and every other turn leave unchanged (10_state.md R12, R19, 20_memory.md R44): the frame of a
command, and which turns change OVR or an operand register. -/

namespace Sys2Proof.Machine

open Sys2Proof.Safety

/-! ### The frame of a command -/

/-- A command of an idle engine is rejected, run to its end, or accepted: none of these changes what is no part of an
operation. -/
theorem exec_kept {i : Instr} {s t : State} (hb : s.status.busy = false) (h : exec i s = .next t) : Kept s t := by
  obtain ⟨hb', -⟩ | ⟨-, -, e⟩ | ⟨start, fuel, -, -, e⟩ | ⟨start, -, -, -, -, e⟩ := exec_cases i s
  · simp [hb] at hb'
  all_goals
    rw [e] at h
    cases h
  · exact ⟨rfl, rfl, rfl, rfl, rfl, rfl⟩
  · exact runTurns_kept (unitTurn_step i) fuel (State.accept i start s)
  · exact ⟨rfl, rfl, rfl, rfl, rfl, rfl⟩

/-- What a command leaves unchanged in every state; OVR, but that a command written while BUSY = 1 sets it. -/
theorem exec_frame {i : Instr} {s t : State} (h : exec i s = .next t) :
    t.cfg = s.cfg ∧ t.args = s.args ∧ t.resetAsserted = s.resetAsserted ∧ t.schedule = s.schedule ∧ t.seen = s.seen ∧
      t.status.ovr = (s.status.ovr || s.status.busy) := by
  cases hb : s.status.busy with
  | true =>
    rw [exec_busy hb] at h
    cases h
    simp
  | false =>
    obtain ⟨hc, ha, ho, hr, hs, hd⟩ := exec_kept hb h
    exact ⟨hc, ha, hr, hs, hd, by rw [ho, Bool.or_false]⟩

/-- A command other than FEQ16 writes no memory (20_memory.md R44). -/
theorem exec_mem {i : Instr} {s t : State} (hi : i ≠ .feq16) (h : exec i s = .next t) : t.mem = s.mem := by
  obtain ⟨-, e⟩ | ⟨-, -, e⟩ | ⟨start, fuel, -, -, e⟩ | ⟨start, -, -, -, -, e⟩ := exec_cases i s <;>
    rw [e] at h <;> cases h
  · rfl
  · rfl
  · exact runTurns_invariant (unitTurn_step i) (fun u => u.mem = s.mem) (fun _ _ hu _ hm => (hu.mem_eq hi).trans hm)
      fuel _ rfl
  · rfl

/-- Settles O33: the frame of a command, and its memory. -/
theorem nonStoringCommandFrame : Obligations.NonStoringCommandFrame := by
  intro i s t hi h
  obtain ⟨hc, ha, hr, hs, hd, ho⟩ := exec_frame h
  exact ⟨hc, ha, fun a => by rw [exec_mem hi h], hr, hs, hd, ho⟩

/-! ### Operand registers -/

@[simp] theorem engineTurn_args (s : State) : (engineTurn s).args = s.args := by
  obtain ⟨-, ha, -⟩ := engineTurn_kept s
  exact ha

@[simp] theorem readReg_args (r : Reg) (s : State) : (readReg r s).args = s.args := by
  obtain ⟨v, d, h⟩ := readReg_eq r s
  rw [h]

/-- A register write changes an operand register only if it names it and the engine is idle (40_command_lifecycle.md
R91). -/
theorem writeReg_args (r : Reg) (v : Word) (s : State) :
    (writeReg r v s).args = s.args ∨
      ∃ i, r = .arg i ∧ s.status.busy = false ∧ (writeReg r v s).args = Args.set s.args i v := by
  obtain e | ⟨-, e, -⟩ | ⟨-, -, e⟩ | ⟨-, e⟩ | ⟨i, hi, hb, e⟩ := writeReg_cases r v s <;> rw [e]
  · exact .inl rfl
  · exact .inl rfl
  · exact .inl rfl
  · exact .inl rfl
  · exact .inr ⟨i, hi, hb, rfl⟩

/-- Of the turns that issue no command, only the host's write to an operand register of an idle engine and the assertion
of reset change an operand register. -/
theorem OtherTurn.args_cases {s t : State} (h : OtherTurn s t) :
    t.args = s.args ∨
    (∃ i v rest, s.status.busy = false ∧ s.schedule = wrArg i v :: rest ∧ t.args = Args.set s.args i v) ∨
    (∃ rest, s.schedule = .assertReset :: rest) := by
  cases h with
  | write off n v rest hs _ hw =>
    obtain e | ⟨i, hi, hb, e⟩ := writeReg_args (regOf off) v { s with schedule := rest }
    · exact .inl e
    · obtain ⟨rfl, -⟩ := (registerAccessWf_iff off n).1 hw
      rw [regOf_eq_arg_iff] at hi
      exact .inr (.inl ⟨i, v, rest, hb, by rw [hs, hi, wrArg], e⟩)
  | assertReset rest hs => exact .inr (.inr ⟨rest, hs⟩)
  | alone | polls | engine | read => exact .inl (by simp)
  | waits | waited | dropped | store | load | releaseReset | falignBegin | falignDivide | falignFinish => exact .inl rfl

/-- Settles O30: a command changes no operand register, and the other turns only these two. -/
theorem onlyHostWritesOperands : Obligations.OnlyHostWritesOperands := by
  intro s t h hne
  obtain ⟨i, u, hf, he⟩ | ⟨-, ho⟩ := step_cases h
  · obtain ⟨_, _, _, _, -, -, -, -, -, rfl⟩ := (fetch_eq_some_iff s i u).1 hf
    obtain ⟨-, ha, -⟩ := exec_frame he
    exact absurd ha hne
  · exact (otherTurn_cases ho).args_cases.resolve_left hne

/-! ### OVR -/

/-- The values `b` that a step may leave in OVR, by its turn (10_state.md R19). -/
inductive OvrChange (s : State) (b : Bool) : Prop where
  | kept (h : b = s.status.ovr)
  /-- A write to CMD or to an operand register while BUSY = 1. -/
  | late (off : BitVec 6) (v : Word) (rest : List Turn) (hb : s.status.busy = true)
      (ho : off = 0x00#6 ∨ ∃ i, off = argOffset i) (hs : s.schedule = .write off .four v :: rest) (h : b = true)
  /-- A write to STATUS. -/
  | written (v : Word) (rest : List Turn) (hs : s.schedule = .write 0x04#6 .four v :: rest)
      (h : b = (s.status.ovr && !v.getLsbD 8))
  | reset (rest : List Turn) (hs : s.schedule = .assertReset :: rest) (h : b = false)

@[simp] theorem engineTurn_ovr (s : State) : (engineTurn s).status.ovr = s.status.ovr := by
  obtain ⟨-, -, ho, -⟩ := engineTurn_kept s
  exact ho

@[simp] theorem readReg_status (r : Reg) (s : State) : (readReg r s).status = s.status := by
  obtain ⟨v, d, h⟩ := readReg_eq r s
  rw [h]

/-- What the write of a register that starts no command does to OVR (40_command_lifecycle.md R91, R92, R97). -/
theorem writeReg_ovrChange {s : State} {off : BitVec 6} {v : Word} {rest : List Turn}
    (hs : s.schedule = .write off .four v :: rest) :
    OvrChange s (writeReg (regOf off) v { s with schedule := rest }).status.ovr := by
  obtain e | ⟨hb, e, hr⟩ | ⟨-, -, e⟩ | ⟨hr, e⟩ | ⟨i, -, -, e⟩ :=
    writeReg_cases (regOf off) v { s with schedule := rest } <;> rw [e]
  · exact .kept rfl
  · simp only [regOf_eq_cmd_iff, regOf_eq_arg_iff] at hr
    exact .late off v rest hb hr hs rfl
  · exact .kept rfl
  · rw [regOf_eq_status_iff] at hr
    exact .written v rest (hr ▸ hs) rfl
  · exact .kept rfl

theorem OtherTurn.ovrChange {s t : State} (h : OtherTurn s t) : OvrChange s t.status.ovr := by
  cases h with
  | write off n v rest hs _ hw =>
    obtain ⟨rfl, -⟩ := (registerAccessWf_iff off n).1 hw
    exact writeReg_ovrChange hs
  | assertReset rest hs => exact .reset rest hs rfl
  | alone | polls | engine | read => exact .kept (by simp)
  | waits | waited | dropped | store | load | releaseReset | falignBegin | falignDivide | falignFinish =>
    exact .kept rfl

/-- Every step leaves OVR at one of these values. -/
theorem step_ovrChange {s t : State} (h : step s = .next t) : OvrChange s t.status.ovr := by
  obtain ⟨i, u, hf, he⟩ | ⟨-, ho⟩ := step_cases h
  · obtain ⟨off, n, v, rest, hs, -, hw, hr, -, rfl⟩ := (fetch_eq_some_iff s i u).1 hf
    obtain ⟨rfl, -⟩ := (registerAccessWf_iff off n).1 hw
    obtain ⟨-, -, -, -, -, ho⟩ := exec_frame he
    cases hb : s.status.busy with
    | true => exact .late off v rest hb (.inl ((regOf_eq_cmd_iff off).1 hr)) hs (by simp [ho, hb])
    | false => exact .kept (by simp [ho, hb])
  · exact (otherTurn_cases ho).ovrChange

/-- Settles O16: a late write is an overrun, and only the turns of `OvrChange` move OVR. -/
theorem overrunIsSticky : Obligations.OverrunIsSticky := by
  refine ⟨fun s off v rest ha hb ho hs => ?_, fun s t h h0 h1 => ?_, fun s t h h1 h0 => ?_⟩
  · obtain rfl | ⟨i, rfl⟩ := ho
    · exact step_write_overrun ha hb hs rfl (.inl rfl)
    · exact step_write_overrun ha hb hs (registerAccessWf_argOffset i) (.inr ⟨i, regOf_argOffset i⟩)
  · cases step_ovrChange h with
    | kept e => simp [h0, h1] at e
    | late off v rest hb ho hs => exact ⟨hb, off, v, rest, ho, hs⟩
    | written v rest hs e => simp [h0, h1] at e
    | reset rest hs e => simp [h1] at e
  · cases step_ovrChange h with
    | kept e => simp [h0, h1] at e
    | late off v rest hb ho hs e => simp [h0] at e
    | written v rest hs e => exact .inr ⟨v, rest, by simpa [h0, h1] using e, hs⟩
    | reset rest hs => exact .inl ⟨rest, hs⟩

end Sys2Proof.Machine
end

section
/-! No operation reads OVR (10_state.md R19): each unit's engine step, the run of an operation, and a command of an idle
engine commute with the update of OVR. -/

namespace Sys2Proof.Machine

section

variable (b : Bool) (s : State)

/-! ### One engine step of a unit -/

theorem gcdMinEdge_withOvr : gcdMinEdge (s.withOvr b) = (gcdMinEdge s).withOvr b := by
  unfold gcdMinEdge
  rw [State.withOvr_draws]
  split <;> rfl

theorem gcdTurn_withOvr : gcdTurn (s.withOvr b) = (gcdTurn s).withOvr b := by
  unfold gcdTurn
  rw [State.withOvr_work, State.withOvr_cfg, gcdMinEdge_withOvr]
  split
  · split <;> rfl
  · rfl

theorem crc32Turn_withOvr : crc32Turn (s.withOvr b) = (crc32Turn s).withOvr b := by
  unfold crc32Turn crcLength crcData
  rw [State.withOvr_work, State.x_withOvr b s 2]
  split
  · rfl
  · split
    · simp only [State.x_withOvr, memRead_withOvr]
      split <;> rfl
    · rfl
  · rfl

theorem flsTurn_withOvr : flsTurn (s.withOvr b) = (flsTurn s).withOvr b := by
  unfold flsTurn
  rw [State.withOvr_work]
  split <;> rfl

theorem normTurn_withOvr : normTurn (s.withOvr b) = (normTurn s).withOvr b := by
  unfold normTurn
  rw [State.withOvr_work]
  split <;> rfl

theorem feqScan_withOvr (i count : Word) : feqScan i count (s.withOvr b) = (feqScan i count s).withOvr b := by
  unfold feqScan feqLength feqVec feqN
  rw [State.x_withOvr b s 3, State.x_withOvr b s 2]
  split
  · simp only [State.x_withOvr, memRead_withOvr]
    split
    · rfl
    · split <;> rfl
  · rfl

theorem feqHit_withOvr (i count : Word) : feqHit i count (s.withOvr b) = (feqHit i count s).withOvr b := by
  unfold feqHit feqOut feqMax
  rw [State.x_withOvr b s 4]
  simp only [State.withOvr_cfg, State.x_withOvr, memWrite_withOvr]
  split
  · rfl
  · split <;> rfl

theorem feq16Turn_withOvr : feq16Turn (s.withOvr b) = (feq16Turn s).withOvr b := by
  unfold feq16Turn
  rw [State.withOvr_work]
  split
  · rfl
  · unfold feqPhaseTurn
    split
    · exact feqScan_withOvr b s _ _
    · exact feqHit_withOvr b s _ _
    · rfl
  · rfl

theorem fmin16Turn_withOvr : fmin16Turn (s.withOvr b) = (fmin16Turn s).withOvr b := by
  unfold fmin16Turn scanLength scanVec
  rw [State.withOvr_work, State.x_withOvr b s 1]
  split
  · rfl
  · split
    · simp only [State.x_withOvr, memRead_withOvr]
      split <;> rfl
    · split <;> rfl
  · rfl

theorem fmaxa32Turn_withOvr : fmaxa32Turn (s.withOvr b) = (fmaxa32Turn s).withOvr b := by
  unfold fmaxa32Turn scanLength scanVec
  rw [State.withOvr_work, State.x_withOvr b s 1]
  split
  · rfl
  · split
    · simp only [State.x_withOvr, memRead_withOvr]
      split <;> rfl
    · split <;> rfl
  · rfl

theorem unitTurn_withOvr (i : Instr) : unitTurn i (s.withOvr b) = (unitTurn i s).withOvr b := by
  cases i with
  | gcd => exact gcdTurn_withOvr b s
  | crc32 => exact crc32Turn_withOvr b s
  | fls => exact flsTurn_withOvr b s
  | norm => exact normTurn_withOvr b s
  | feq16 => exact feq16Turn_withOvr b s
  | fmin16 => exact fmin16Turn_withOvr b s
  | fmaxa32 => exact fmaxa32Turn_withOvr b s

/-! ### A whole operation, and its issue -/

theorem runTurns_withOvr (i : Instr) (fuel : Nat) :
    runTurns (unitTurn i) fuel (s.withOvr b) = (runTurns (unitTurn i) fuel s).withOvr b := by
  induction fuel generalizing s with
  | zero => rfl
  | succ fuel ih =>
    cases hb : s.status.busy with
    | true => rw [runTurns_busy fuel hb, runTurns_busy (s := s.withOvr b) fuel hb, unitTurn_withOvr, ih]
    | false => rw [runTurns_idle _ hb, runTurns_idle (s := s.withOvr b) _ hb]

end

/-- The issue of a command to an idle engine commutes with the update of OVR: so do rejection, acceptance and the run
(40_command_lifecycle.md R93, R95, R96). -/
theorem issue_withOvr {b : Bool} {s t : State} {i : Instr} {start : Work} {fuel : Nat}
    (hb : s.status.busy = false) (h : issue i start fuel (unitTurn i) s = .next t) :
    issue i start fuel (unitTurn i) (s.withOvr b) = .next (t.withOvr b) := by
  have hrun := runTurns_withOvr b (State.accept i start s) i fuel
  obtain ⟨hb', -⟩ | ⟨-, hp, e⟩ | ⟨⟨-, hp, hq⟩, e⟩ | ⟨-, hp, hq, e⟩ := issue_cases i start fuel (unitTurn i) s
  · simp [hb] at hb'
  all_goals
    rw [e] at h
    cases h
    simp only [issue, State.withOvr_busy, State.withOvr_cfg, quiet_withOvr, hb, hp]
  · rfl
  · simp only [hq, ← hrun]
    rfl
  · simp only [hq]
    rfl

/-- Settles O17: a command is issued with the same working registers and the same bound on its steps, whatever OVR
is. -/
theorem overrunDoesNotInfluenceCommands : Obligations.OverrunDoesNotInfluenceCommands := by
  intro i s t b hb h
  cases i <;> exact issue_withOvr hb h

end Sys2Proof.Machine
end

section
/-! Which turns change memory (00_scope.md R8, 20_memory.md R44, R47), and that each of them keeps its canonical form
(R40; log entry 8). -/

namespace Sys2Proof.Machine

open Sys2Proof.Safety

/-! ### The canonical form -/

/-- A command keeps the canonical form: dropped, rejected or accepted it writes nothing, and a run keeps what each engine
step keeps. -/
theorem exec_mem_wf {i : Instr} {s t : State} (h : exec i s = .next t) (hm : Memory.wf s.mem = true) :
    Memory.wf t.mem = true := by
  obtain ⟨-, e⟩ | ⟨-, -, e⟩ | ⟨start, fuel, -, -, e⟩ | ⟨start, -, -, -, -, e⟩ := exec_cases i s <;>
    rw [e] at h <;> cases h
  · exact hm
  · exact hm
  · exact runTurns_invariant (unitTurn_step i) (fun u => Memory.wf u.mem = true) (fun _ _ hu _ => hu.mem_wf) fuel _ hm
  · exact hm

theorem engineTurn_mem_wf {s : State} (hm : Memory.wf s.mem = true) : Memory.wf (engineTurn s).mem = true := by
  obtain e | ⟨i, -, -, -, h⟩ := engineTurn_cases s
  · rwa [e]
  · exact h.mem_wf hm

@[simp] theorem writeReg_mem (r : Reg) (v : Word) (s : State) : (writeReg r v s).mem = s.mem := by
  obtain e | ⟨-, e, -⟩ | ⟨-, -, e⟩ | ⟨-, e⟩ | ⟨i, -, -, e⟩ := writeReg_cases r v s <;> simp [e]

@[simp] theorem readReg_mem (r : Reg) (s : State) : (readReg r s).mem = s.mem := by
  obtain ⟨v, d, e⟩ := readReg_eq r s
  rw [e]

/-- A turn that issues no command changes memory only as the engine's turn or as another master's store. -/
theorem OtherTurn.mem_cases {s t : State} (h : OtherTurn s t) :
    t.mem = s.mem ∨
    (∃ turns, t = engineTurn { s with schedule := turns }) ∨
    (∃ a bytes rest, s.schedule = .store a bytes :: rest ∧ t.mem = Memory.store s.mem a bytes) := by
  cases h with
  | alone | polls => exact .inr (.inl ⟨s.schedule, rfl⟩)
  | engine rest => exact .inr (.inl ⟨rest, rfl⟩)
  | store a bytes rest hs => exact .inr (.inr ⟨a, bytes, rest, hs, rfl⟩)
  | write | read => exact .inl (by simp)
  | waits | waited | dropped | load | assertReset | releaseReset | falignBegin | falignDivide | falignFinish =>
    exact .inl rfl

theorem OtherTurn.mem_wf {s t : State} (h : OtherTurn s t) (hm : Memory.wf s.mem = true) :
    Memory.wf t.mem = true := by
  obtain e | ⟨turns, rfl⟩ | ⟨a, bytes, rest, -, e⟩ := h.mem_cases
  · rwa [e]
  · exact engineTurn_mem_wf hm
  · rw [e]
    exact Memory.store_wf hm

/-- Settles O27: a step is a command or another turn, and each keeps the canonical form. -/
theorem stepKeepsMemoryCanonical : Obligations.StepKeepsMemoryCanonical := by
  intro s t hm h
  obtain ⟨i, u, hf, he⟩ | ⟨-, ho⟩ := step_cases h
  · obtain ⟨_, _, _, _, -, -, -, -, -, rfl⟩ := (fetch_eq_some_iff s i u).1 hf
    exact exec_mem_wf he hm
  · exact (otherTurn_cases ho).mem_wf hm

/-! ### The turns that change memory -/

/-- The engine's turn writes memory only while FEQ16 is in flight. -/
theorem engineTurn_mem_cases (s : State) :
    (engineTurn s).mem = s.mem ∨ (s.status.busy = true ∧ s.opl = opcodeOf .feq16) := by
  obtain e | ⟨i, hb, -, ho, h⟩ := engineTurn_cases s
  · exact .inl (by rw [e])
  · by_cases hi : i = .feq16
    · exact .inr ⟨hb, hi ▸ ho⟩
    · exact .inl (h.mem_eq hi)

/-- The only word that decodes to a command is its own command word (30_encoding.md R72). -/
theorem eq_encode_of_decode {w : Word} {i : Instr} (h : decode w = .ok i) : w = encode i := by
  obtain ⟨-, e⟩ | ⟨j, hr, ho, e⟩ | ⟨-, -, e⟩ := decode_cases w <;> rw [e] at h <;> cases h
  rw [← wordOf_fieldsOf w, encode, ← hr, ← ho]

/-- The turn that issues a command is the write of its command word to CMD. -/
theorem schedule_of_fetch {s t : State} {i : Instr} (h : fetch s = some (i, t)) :
    ∃ rest, s.schedule = wrCommand i :: rest ∧ t = { s with schedule := rest } := by
  obtain ⟨off, n, v, rest, hs, -, hw, hr, hd, ht⟩ := (fetch_eq_some_iff s i t).1 h
  obtain ⟨rfl, -⟩ := (registerAccessWf_iff off n).1 hw
  rw [regOf_eq_cmd_iff] at hr
  exact ⟨rest, by rw [hs, hr, eq_encode_of_decode hd, wrCommand], ht⟩

/-- Settles O31: of the commands only FEQ16 writes memory, and of the other turns only the engine's and a store. -/
theorem onlyFeq16WritesMemory : Obligations.OnlyFeq16WritesMemory := by
  intro s t h hne
  obtain ⟨i, u, hf, he⟩ | ⟨-, ho⟩ := step_cases h
  · obtain ⟨rest, hs, rfl⟩ := schedule_of_fetch hf
    by_cases hi : i = .feq16
    · exact .inr (.inl ⟨rest, hi ▸ hs⟩)
    · exact absurd (exec_mem hi he) hne
  · obtain e | ⟨turns, rfl⟩ | ⟨a, bytes, rest, hs, -⟩ := (otherTurn_cases ho).mem_cases
    · exact absurd e hne
    · exact .inr (.inr ((engineTurn_mem_cases { s with schedule := turns }).resolve_left hne))
    · exact .inl ⟨a, bytes, rest, hs⟩

/-- Settles O21: a store issues no command, so the step is `masterStore`. -/
theorem masterStoreInterleaves : Obligations.MasterStoreInterleaves := by
  intro s a bytes rest hs
  have hstep : step s = masterStore a bytes { s with schedule := rest } := by
    rw [step_eq_otherTurn (by simp [hs]), otherTurn, hs]
  rw [hstep, masterStore]
  exact ⟨fun hw => by simp [hw], fun hw => by simp [hw]⟩

end Sys2Proof.Machine
end

section
/-! Which accesses `MemAdmit` admits (20_memory.md R41, R43, R59), and the values that the admitted ones store and return
(R41, R42). -/

namespace Sys2Proof.Machine

/-! ### Admission -/

/-- `MemAdmit`: the three exclusions, and the platform's regions. -/
theorem admits_iff (c : Config) (a : Word) (n : AccessSize) (k : AccessKind) :
    admits c a n k = true ↔
      a.toNat + AccessSize.bytes n ≤ 2 ^ 32 ∧ (c.alignRequired = true → a.toNat % AccessSize.bytes n = 0) ∧
        meetsWindow c a (AccessSize.bytes n) = false ∧ c.ram.any (fun r => Region.covers r a n k) = true := by
  simp only [admits, Bool.and_eq_true, Bool.or_eq_true, Bool.not_eq_true', decide_eq_true_eq, and_assoc,
    imp_iff_not_or, Bool.not_eq_true]

/-- An access that shares a byte with the window meets it (R59). -/
theorem meetsWindow_of_mem {c : Config} {a : Word} {n b : Nat} (ha : a.toNat ≤ b) (hn : b < a.toNat + n)
    (hc : c.npcBase.toNat ≤ b) (hw : b < c.npcBase.toNat + 64) : meetsWindow c a n = true := by
  simp only [meetsWindow, Bool.and_eq_true, decide_eq_true_eq]
  omega

theorem admits_of_meetsWindow {c : Config} {a : Word} {n : AccessSize} (h : meetsWindow c a (AccessSize.bytes n) = true)
    (k : AccessKind) : admits c a n k = false := by
  rw [Bool.eq_false_iff, Ne, admits_iff]
  rintro ⟨-, -, hw, -⟩
  exact absurd (h.symm.trans hw) (by decide)

/-- Settles O22: `MemAdmit` excludes the window for both kinds, and what is not admitted raises BusFault. -/
theorem ownWindowNotAdmitted : Obligations.OwnWindowNotAdmitted := by
  rintro s a n v ⟨b, ha, hn, hc, hw⟩
  have hadm := admits_of_meetsWindow (meetsWindow_of_mem ha hn hc hw)
  exact ⟨hadm .read, hadm .write, by simp [memRead, hadm], by simp [memWrite, hadm]⟩

/-- Settles O23: an admitted access ends inside the space, and is aligned where that is required. -/
theorem straddlingAndMisalignedNotAdmitted : Obligations.StraddlingAndMisalignedNotAdmitted := by
  intro c a n k
  simp only [Bool.eq_false_iff, Ne, admits_iff]
  refine ⟨fun h ⟨hend, _⟩ => ?_, fun hr hmis ⟨_, halign, _⟩ => ?_⟩
  · omega
  · exact hmis (halign hr)

/-! ### Bytes and values -/

/-- Each bit of an assembled value: the first byte is in bits 7:0, and the others follow it. -/
theorem assemble_cons_getLsbD (b : Byte) (bytes : List Byte) {k : Nat} (hk : k < 32) :
    (assemble (b :: bytes)).getLsbD k = if k < 8 then b.getLsbD k else (assemble bytes).getLsbD (k - 8) := by
  have hcons : assemble (b :: bytes) = assemble bytes <<< 8 ||| b.setWidth 32 := rfl
  rw [hcons, BitVec.getLsbD_or, BitVec.getLsbD_shiftLeft, BitVec.getLsbD_setWidth]
  split
  · simp [*]
  · have hb : b.getLsbD k = false := BitVec.getLsbD_of_ge b k (by omega)
    simp only [*, decide_true, decide_false, Bool.not_false, Bool.true_and, Bool.and_false, Bool.or_false]

@[simp] theorem assemble_nil : assemble [] = 0#32 := rfl

/-- Two bytes, least significant first. -/
theorem assemble_two (b0 b1 : Byte) : assemble [b0, b1] = 0#16 ++ b1 ++ b0 := by
  refine BitVec.eq_of_getLsbD_eq fun k hk => ?_
  simp (disch := omega) only [assemble_cons_getLsbD, BitVec.getLsbD_append, assemble_nil, BitVec.getLsbD_zero]

/-- Four bytes, least significant first. -/
theorem assemble_four (b0 b1 b2 b3 : Byte) : assemble [b0, b1, b2, b3] = b3 ++ b2 ++ b1 ++ b0 := by
  refine BitVec.eq_of_getLsbD_eq fun k hk => ?_
  have h24 : k - 8 - 8 - 8 < 8 := by omega
  simp (disch := omega) only [assemble_cons_getLsbD, BitVec.getLsbD_append, h24, if_true]

/-- Assembling the low `n` bytes of a value keeps its low `8·n` bits. -/
theorem assemble_splitBytes_getLsbD (n : Nat) (v : Word) {k : Nat} (hk : k < 32) :
    (assemble (splitBytes n v)).getLsbD k = (decide (k < 8 * n) && v.getLsbD k) := by
  induction n generalizing v k with
  | zero => simp [splitBytes]
  | succ n ih =>
    rw [splitBytes, assemble_cons_getLsbD _ _ hk]
    split
    · have hn : k < 8 * (n + 1) := by omega
      simp [*]
    · have h8 : 8 + (k - 8) = k := by omega
      have hn : k - 8 < 8 * n ↔ k < 8 * (n + 1) := by omega
      rw [ih _ (by omega)]
      simp [h8, hn]

theorem assemble_splitBytes (n : Nat) (v : Word) :
    assemble (splitBytes n v) = v &&& BitVec.ofNat 32 (2 ^ (8 * n) - 1) := by
  refine BitVec.eq_of_getLsbD_eq fun k hk => ?_
  rw [assemble_splitBytes_getLsbD n v hk, BitVec.getLsbD_and, BitVec.getLsbD_ofNat, Nat.testBit_two_pow_sub_one]
  simp [hk, Bool.and_comm]

@[simp] theorem inByteOrder_inByteOrder (c : Config) (bytes : List Byte) :
    inByteOrder c (inByteOrder c bytes) = bytes := by
  unfold inByteOrder
  split <;> simp

/-! ### Loads -/

/-- A load that does not run over the top of the space, byte by byte. -/
theorem Memory.load_eq_map (m : Memory) {a : Word} {n : Nat} (h : a.toNat + n ≤ 2 ^ 32) :
    Memory.load m a n = (List.range n).map fun j => Memory.byteAt m (a.toNat + j) := by
  induction n generalizing a with
  | zero => rfl
  | succ n ih =>
    rw [Memory.load, List.range_succ_eq_map, List.map_cons, List.map_map]
    cases n with
    | zero => rfl
    | succ n =>
      have ha : (a + 1).toNat = a.toNat + 1 := BitVec.toNat_add_of_lt (by simp; omega)
      rw [ih (by omega), ha]
      simp [Function.comp_def, Nat.add_assoc, Nat.add_comm 1]

/-- Stored bytes load back, where no address is stored to twice. -/
theorem Memory.load_store_same {m : Memory} (hm : Memory.wf m = true) (a : Word) {bytes : List Byte}
    (h : bytes.length ≤ 2 ^ 32) : Memory.load (Memory.store m a bytes) a bytes.length = bytes := by
  induction bytes generalizing m a with
  | nil => rfl
  | cons b rest ih =>
    have hwf : Memory.wf (Memory.setByte m a.toNat b) = true := Memory.setByte_wfFrom hm (Nat.zero_le _) a.isLt
    rw [List.length_cons] at h
    have hfirst : Memory.byteAt (Memory.store (Memory.setByte m a.toNat b) (a + 1) rest) a.toNat = b := by
      rw [Memory.byteAt_store_outside, Memory.byteAt_setByte_same hm]
      intro j hj e
      have hsum : a + (1 + BitVec.ofNat 32 j) = a := by rw [← BitVec.add_assoc, ← e]
      have hj : (1 + j) % 2 ^ 32 = 0 := by simpa [← BitVec.toNat_inj] using hsum
      omega
    rw [Memory.store, List.length_cons, Memory.load, hfirst, ih hwf _ (by omega)]

/-- Settles O24: the bytes of the read, assembled in the byte order of the parameters. -/
theorem byteOrderOfReads : Obligations.ByteOrderOfReads := by
  refine fun s a => ⟨fun h => ⟨_, _, rfl, rfl, ?_⟩, fun h => ⟨_, _, _, _, rfl, rfl, rfl, rfl, ?_⟩⟩
  all_goals
    obtain ⟨hend, -⟩ := (admits_iff _ _ _ _).1 h
    rw [memRead, if_pos h, Memory.load_eq_map _ hend, inByteOrder]
  · split <;> simp [AccessSize.bytes, List.range_succ, assemble_two]
  · split <;> simp [AccessSize.bytes, List.range_succ, assemble_four]

/-- Settles O25: the stored bytes load back, and in the same byte order they assemble to the bits that were split. -/
theorem writeThenReadReturnsValue : Obligations.WriteThenReadReturnsValue := by
  intro s a n v m hm hw hr
  obtain ⟨-, e⟩ | ⟨-, e⟩ := memWrite_cases s a n v <;> rw [e] at hw <;> cases hw
  have hlen : (inByteOrder s.cfg (splitBytes (AccessSize.bytes n) v)).length = AccessSize.bytes n := by
    rw [inByteOrder_length, splitBytes_length]
  have hload := Memory.load_store_same hm a (bytes := inByteOrder s.cfg (splitBytes (AccessSize.bytes n) v))
    (by rw [hlen]; cases n <;> decide)
  rw [hlen] at hload
  rw [memRead, if_pos hr]
  simp only [hload, inByteOrder_inByteOrder, assemble_splitBytes]

end Sys2Proof.Machine
end

section
/-! The decoder against the encoder, over all commands and all words (30_encoding.md R71, R72, R75), and the step whose
turn polls STATUS (R80). -/

namespace Sys2Proof

/-! ### The fields as numbers -/

theorem fieldsOf_rsv_toNat (w : Word) : (fieldsOf w).rsv.toNat = w.toNat / 16 := by
  have h := w.isLt
  rw [fieldsOf, BitVec.extractLsb'_toNat, Nat.shiftRight_eq_div_pow]
  omega

theorem fieldsOf_opc_toNat (w : Word) : (fieldsOf w).opc.toNat = w.toNat % 16 := by
  simp [fieldsOf]

theorem fieldsOf_rsv_eq_zero_iff (w : Word) : (fieldsOf w).rsv = 0 ↔ w.toNat < 16 := by
  rw [← BitVec.toNat_inj, fieldsOf_rsv_toNat]
  simp

/-! ### The opcode map and well-formedness -/

/-- The reserved opcodes (R75). -/
theorem instrOfOpcode_eq_none_iff (o : BitVec 4) : instrOfOpcode o = none ↔ o.toNat = 0 ∨ 8 ≤ o.toNat := by
  revert o
  decide

/-- A command word is well formed when RSV is zero and the opcode map knows its OPC (R72, R75). -/
theorem CommandWord.wf_iff (c : CommandWord) : c.wf = true ↔ c.rsv = 0 ∧ instrOfOpcode c.opc ≠ none := by
  have hrange : ∀ o : BitVec 4, (1 ≤ o ∧ o ≤ 7) ↔ instrOfOpcode o ≠ none := by decide
  rw [← hrange]
  simp only [CommandWord.wf, Bool.and_eq_true, decide_eq_true_eq, and_assoc]

/-! ### What decodes, and what is refused -/

@[simp] theorem decode_encode (i : Instr) : decode (encode i) = .ok i := by
  simp [decode, encode]

theorem decode_eq_ok_iff (w : Word) (i : Instr) : decode w = .ok i ↔ w = encode i :=
  ⟨Machine.eq_encode_of_decode, fun h => h ▸ decode_encode i⟩

@[simp] theorem decodeTableWord_encode (i : Instr) : decodeTableWord 32 (encode i).toNat = some i := by
  have hfit : (encode i).toNat < 2 ^ 32 := (encode i).isLt
  rw [decodeTableWord, if_pos ⟨hfit, hfit⟩, BitVec.ofNat_toNat, BitVec.setWidth_eq, decode_encode]
  rfl

theorem decode_isOk_iff_wf (w : Word) : (∃ i, decode w = .ok i) ↔ (fieldsOf w).wf = true := by
  rw [CommandWord.wf_iff]
  obtain ⟨hr, e⟩ | ⟨i, hr, ho, e⟩ | ⟨-, ho, e⟩ := decode_cases w
  · exact iff_of_false (by simp [e]) fun h => hr h.1
  · exact iff_of_true ⟨i, e⟩ ⟨hr, by simp [ho]⟩
  · exact iff_of_false (by simp [e]) fun h => h.2 ho

theorem decode_eq_reservedBits_iff (w : Word) : decode w = .error .reservedBits ↔ 16 ≤ w.toNat := by
  rw [← not_lt, ← fieldsOf_rsv_eq_zero_iff]
  obtain ⟨hr, e⟩ | ⟨_, hr, -, e⟩ | ⟨hr, -, e⟩ := decode_cases w
  · exact iff_of_true e hr
  · exact iff_of_false (by simp [e]) (not_not.2 hr)
  · exact iff_of_false (by simp [e]) (not_not.2 hr)

theorem decode_eq_reservedOpcode_iff (w : Word) :
    decode w = .error .reservedOpcode ↔ w.toNat = 0 ∨ (8 ≤ w.toNat ∧ w.toNat < 16) := by
  have hfields : ((fieldsOf w).rsv = 0 ∧ instrOfOpcode (fieldsOf w).opc = none) ↔
      w.toNat = 0 ∨ (8 ≤ w.toNat ∧ w.toNat < 16) := by
    rw [fieldsOf_rsv_eq_zero_iff, instrOfOpcode_eq_none_iff, fieldsOf_opc_toNat]
    omega
  rw [← hfields]
  obtain ⟨hr, e⟩ | ⟨_, -, ho, e⟩ | ⟨hr, ho, e⟩ := decode_cases w
  · exact iff_of_false (by simp [e]) fun h => hr h.1
  · exact iff_of_false (by simp [e]) (by simp [ho])
  · exact iff_of_true e ⟨hr, ho⟩

/-- Settles O2: the two directions of the round trip, the table's form of it, and well-formedness. -/
theorem decodeAndEncodeAgree : Obligations.DecodeAndEncodeAgree :=
  ⟨decode_eq_ok_iff, decodeTableWord_encode, decode_isOk_iff_wf⟩

/-- Settles O3: RSV and OPC are the quotient and the remainder of the word by 16. -/
theorem decodeRefusesReservedWords : Obligations.DecodeRefusesReservedWords :=
  fun w => ⟨decode_eq_reservedBits_iff w, decode_eq_reservedOpcode_iff w⟩

/-- Settles O1: 1 to 7 are the command words, and the other five are refused for their field. -/
theorem decodesSpecWords : Obligations.DecodesSpecWords :=
  ⟨decode_encode .gcd, decode_encode .crc32, decode_encode .fls, decode_encode .norm, decode_encode .feq16,
    decode_encode .fmin16, decode_encode .fmaxa32, (decode_eq_reservedOpcode_iff _).2 (by decide),
    (decode_eq_reservedOpcode_iff _).2 (by decide), (decode_eq_reservedOpcode_iff _).2 (by decide),
    (decode_eq_reservedBits_iff _).2 (by decide), (decode_eq_reservedBits_iff _).2 (by decide)⟩

namespace Machine

/-! ### Polling -/

/-- A poll issues no command (R80). -/
theorem step_wait {s : State} {rest : List Turn} (hs : s.schedule = .wait :: rest) :
    step s = .next (hostWait rest s) := by
  rw [step_eq_otherTurn (by simp [hs]), otherTurn, hs]

theorem hostWait_done {s : State} (rest : List Turn) (ha : s.resetAsserted = false) (hd : s.status.done = true) :
    hostWait rest s = State.returnData (statusWord s.status) { s with schedule := rest } := by
  simp [hostWait, ha, hd]

theorem hostWait_not_done {s : State} (rest : List Turn) (ha : s.resetAsserted = false)
    (hd : s.status.done = false) : hostWait rest s = engineTurn s := by
  simp [hostWait, ha, hd]

/-- Settles O20: the step is one poll, which reads STATUS or leaves the turn to the engine. -/
theorem waitPollsUntilDone : Obligations.WaitPollsUntilDone := by
  intro s rest ha hs
  rw [step_wait hs]
  refine ⟨fun hd => ?_, fun hd => ?_⟩
  · rw [hostWait_done rest ha hd]
    rfl
  · rw [hostWait_not_done rest ha hd]

end Machine

end Sys2Proof
end

section
/-! The host's writes to the register window (40_command_lifecycle.md R90 to R98): what the write of a command word
does, in the order of R92's checks, and what a write to each other register does. -/

namespace Sys2Proof.Machine

open Sys2Proof.Safety

/-! ### A command of an idle engine -/

/-- A command whose unit is absent is rejected (R92 case 3). -/
theorem exec_absent {i : Instr} {s : State} (hb : s.status.busy = false) (hp : present s.cfg i = false) :
    exec i s = .next (State.raise .unitAbsent s) := by
  obtain ⟨start, fuel, -, e⟩ := exec_eq_issue i s
  simp [e, issue, hb, hp]

/-- Where another agent moves before completion a command is accepted, and no more (R93, R94). -/
theorem exec_eq_accept {i : Instr} {s : State} (hb : s.status.busy = false) (hp : present s.cfg i = true)
    (hq : quiet s = false) :
    ∃ start, belongs i start = true ∧ exec i s = .next (State.accept i start s) := by
  obtain ⟨start, fuel, hw, e⟩ := exec_eq_issue i s
  exact ⟨start, hw, by simp [e, issue, hb, hp, hq]⟩

/-! ### The write of a word to CMD -/

/-- A word that is no command is rejected by an idle engine (R92 case 2). -/
theorem step_write_illegal {s : State} {w : Word} {rest : List Turn} (ha : s.resetAsserted = false)
    (hb : s.status.busy = false) (hs : s.schedule = .write 0x00#6 .four w :: rest) (hd : ∀ i, decode w ≠ .ok i) :
    step s = .next (State.raise .illegalCmd { s with schedule := rest }) := by
  rw [step_write ha hs rfl fun _ => hd]
  simp [regOf, writeReg, writeIllegal, hb]

/-- The command words are 1 to 7 (30_encoding.md R72). -/
theorem encode_toNat_range (i : Instr) : 1 ≤ (encode i).toNat ∧ (encode i).toNat < 8 := by
  cases i <;> decide

/-- Settles O4: the turn is fetched as the command its word decodes to; `withFetchWord` places such a turn. -/
theorem stepRunsDecodedCommand : Obligations.StepRunsDecodedCommand := by
  refine ⟨fun s i w rest ha hs hd => step_write_command ha hs rfl rfl hd, fun s i => ?_⟩
  have hword : BitVec.ofNat 32 ((encode i).toNat % 2 ^ 32) = encode i := by
    rw [Nat.mod_eq_of_lt (encode i).isLt, BitVec.ofNat_toNat, BitVec.setWidth_eq]
  rw [State.withFetchWord, hword]
  exact step_write_command rfl rfl rfl rfl (decode_encode i)

/-- Settles O5: one clause of R92 after the other. -/
theorem commandWriteChecksInOrder : Obligations.CommandWriteChecksInOrder := by
  refine ⟨fun s w rest ha hs => ⟨fun hb => ?_, fun hb hw => ?_, ?_, ?_⟩,
    fun _ => ⟨rfl, rfl, rfl, rfl, rfl, rfl, rfl⟩⟩
  · exact step_write_overrun ha hb hs rfl (.inl rfl)
  · refine step_write_illegal ha hb hs fun i hi => ?_
    have := encode_toNat_range i
    rw [decode_eq_ok_iff] at hi
    rw [hi] at hw
    omega
  · rintro i hb rfl hp
    rw [step_write_command ha hs rfl rfl (decode_encode i)]
    exact exec_absent hb hp
  · rintro i hb rfl hp
    have hstep := step_write_command ha hs rfl rfl (decode_encode i)
    refine ⟨hstep, fun hq => ?_⟩
    rw [hstep]
    exact exec_eq_accept hb hp hq

/-- Settles O6: acceptance field by field; while BUSY = 1 no step but the assertion of reset changes an operand. -/
theorem acceptanceStartsOperation : Obligations.AcceptanceStartsOperation := by
  constructor
  · intro i s hb hp hq
    obtain ⟨start, hw, e⟩ := exec_eq_accept hb hp hq
    exact ⟨_, e, rfl, rfl, hw, rfl, rfl, rfl, rfl⟩
  · intro s t off n v rest hb hs h
    by_contra hne
    obtain ⟨_, _, _, hb', -⟩ | ⟨_, hs'⟩ := onlyHostWritesOperands s t h hne
    · exact absurd (hb.symm.trans hb') Bool.noConfusion
    · rw [hs] at hs'
      cases hs'

/-- Settles O7: both rejections are `State.raise`, which writes ERR and DONE. -/
theorem rejectionWritesErrAndDoneOnly : Obligations.RejectionWritesErrAndDoneOnly :=
  ⟨fun _ _ _ ha hb hs hd => step_write_illegal ha hb hs hd, fun _ _ hb hp => exec_absent hb hp⟩

/-! ### The write of another register -/

/-- Settles O8: the write of `x[i]` when idle, and an overrun while BUSY = 1. -/
theorem operandWriteOrOverrun : Obligations.OperandWriteOrOverrun := by
  intro s i v rest ha hs
  have hwf := registerAccessWf_argOffset i
  refine ⟨fun hb => ⟨?_, Args.get_set_same _ _ _, fun j hj => Args.get_set_other _ _ _ _ hj⟩, fun hb => ?_⟩
  · rw [step_write ha hs hwf (by simp [regOf_argOffset]), regOf_argOffset]
    simp [writeReg, hb]
  · exact step_write_overrun ha hb hs hwf (.inr ⟨i, regOf_argOffset i⟩)

/-- Settles O9: the write of STATUS updates OVR, whatever BUSY is. -/
theorem statusWriteClearsOverrun : Obligations.StatusWriteClearsOverrun :=
  fun _ _ _ ha hs => step_write ha hs rfl nofun

/-- Settles O10: `writeReg` answers the state it is given for each of these registers. -/
theorem readOnlyWritesIgnored : Obligations.ReadOnlyWritesIgnored := by
  rintro s off v rest ha (rfl | rfl | ⟨hoff, halign⟩) hs
  · exact step_write ha hs rfl nofun
  · exact step_write ha hs rfl nofun
  · have hreg := regOf_reserved hoff
    rw [step_write ha hs ((registerAccessWf_iff _ _).2 ⟨rfl, halign⟩) (by simp [hreg]), hreg]
    rfl

end Sys2Proof.Machine
end

section
/-! Progress of an operation (40_command_lifecycle.md R94, R95, R100): a bound on the engine steps it has left, which
every step of its unit lowers until the completion step; and a run of a unit against the machine's own steps under a
quiet schedule. -/

namespace Sys2Proof.Machine

open Sys2Proof.Safety

/-! ### How many engine steps are left -/

/-- How many elements from index `i` on lie below `len`, both read as `s32` (30_encoding.md R74). -/
def elemsLeft (len : Int) (i : Word) : Nat := (len - i.toInt).toNat

/-- A bound on the engine steps an operation has left before its completion step, from its working registers. FEQ16
takes two steps for an element that matches, FMIN16 and FMAXA32 read element 0 whatever the length is. -/
def turnsLeft (s : State) : Nat :=
  match s.work with
  | .crc32 _ _ i _ => (crcLength s).toNat - i.toNat
  | .feq16 i _ .scan => 2 * elemsLeft (feqLength s).toInt i
  | .feq16 i _ .hit => 2 * elemsLeft (feqLength s).toInt (i + 1) + 1
  | .fmin16 i _ => elemsLeft (max 1 (scanLength s).toInt) i
  | .fmaxa32 i _ => elemsLeft (max 1 (scanLength s).toInt) i
  | _ => 0

/-- No GCD under the `INT32_MIN` edge of 41_gcd.md R113 is in flight. -/
def EdgeFree (s : State) : Prop :=
  ∀ a b k, s.work = .gcd a b k → s.cfg.gcdMinPolicy = .unsignedMagnitude ∨ (a ≠ int32Min ∧ b ≠ int32Min)

/-- What one engine step must do for the operation to end: complete it, or leave it fewer steps. -/
def Progress (s t : State) : Prop := t.status.busy = false ∨ turnsLeft t < turnsLeft s

/-- The operation has ended: DONE 1, with a result or with BUS_FAULT (R95). -/
def Ended (t : State) : Prop :=
  t.status.busy = false ∧ t.status.done = true ∧ (t.status.err = 0 ∨ t.status.err = 3)

theorem elemsLeft_succ_lt {len : Int} {i : Word} (hlen : len < 2 ^ 31) (hi : i.toInt < len) :
    elemsLeft len (i + 1) < elemsLeft len i := by
  have hlow : -2 ^ 31 ≤ i.toInt := i.le_toInt
  have hsucc : (i + 1).toInt = i.toInt + 1 := by
    rw [BitVec.toInt_add, show (1 : Word).toInt = 1 from rfl]
    exact Int.bmod_eq_of_le (by omega) (by omega)
  rw [elemsLeft, elemsLeft, hsucc]
  omega

/-- FMIN16 and FMAXA32 read element 0 and the elements below the length (45_vector.md R165, R167). -/
theorem elemsLeft_scan_succ_lt {len i : Word} (h : i = 0 ∨ i.slt len) :
    elemsLeft (max 1 len.toInt) (i + 1) < elemsLeft (max 1 len.toInt) i := by
  refine elemsLeft_succ_lt (max_lt (by decide) len.toInt_lt) ?_
  obtain rfl | h := h
  · exact lt_max_of_lt_left (by decide)
  · exact lt_max_of_lt_right (BitVec.slt_iff_toInt_lt.1 h)

/-- From element 0 on, all elements in range are left. -/
theorem elemsLeft_zero (len : Word) : elemsLeft len.toInt 0 = lengthOf len := by
  simp [elemsLeft, lengthOf]

theorem elemsLeft_scan_zero_lt (len : Word) : elemsLeft (max 1 len.toInt) 0 < lengthOf len + 2 := by
  simp only [elemsLeft, lengthOf, BitVec.ofNat_eq_ofNat, BitVec.toInt_zero]
  omega

/-! ### Each unit's engine step makes progress -/

/-- A GCD outside the edge has the completion step only (41_gcd.md R113). -/
theorem gcdTurn_ends {s : State} (hw : belongs .gcd s.work = true) (he : EdgeFree s) :
    (gcdTurn s).status.busy = false := by
  cases hk : s.work with
  | gcd a b k =>
    have hno : ¬(s.cfg.gcdMinPolicy = .refuse ∧ (a = int32Min ∨ b = int32Min)) := by
      obtain hp | ⟨ha, hb⟩ := he a b k hk
      · simp [hp]
      · simp [ha, hb]
    simp only [gcdTurn, hk, if_neg hno]
    rfl
  | _ => rw [hk] at hw; cases hw

theorem flsTurn_ends {s : State} (hw : belongs .fls s.work = true) : (flsTurn s).status.busy = false := by
  cases hk : s.work with
  | fls => simp only [flsTurn, hk]; rfl
  | _ => rw [hk] at hw; cases hw

theorem normTurn_ends {s : State} (hw : belongs .norm s.work = true) : (normTurn s).status.busy = false := by
  cases hk : s.work with
  | norm => simp only [normTurn, hk]; rfl
  | _ => rw [hk] at hw; cases hw

theorem crc32Turn_progress {s : State} (hw : belongs .crc32 s.work = true) : Progress s (crc32Turn s) := by
  cases hk : s.work with
  | refused => simp only [crc32Turn, hk]; exact .inl rfl
  | crc32 crc cur i bit =>
    have hleft : turnsLeft s = (crcLength s).toNat - i.toNat := by simp only [turnsLeft, hk]
    simp only [crc32Turn, hk]
    split
    · rename_i hi
      have hlt : i.toNat < (crcLength s).toNat := hi
      refine .inr ?_
      rw [hleft]
      split
      · exact Nat.sub_pos_of_lt hlt
      · have hsucc : (i + 1).toNat = i.toNat + 1 :=
          BitVec.toNat_add_of_lt (lt_of_le_of_lt hlt (crcLength s).isLt)
        change (crcLength s).toNat - (i + 1).toNat < _
        omega
    · exact .inl rfl
  | _ => rw [hk] at hw; cases hw

theorem feqScan_progress {i count : Word} {s : State} (hk : s.work = .feq16 i count .scan) :
    Progress s (feqScan i count s) := by
  have hleft : turnsLeft s = 2 * elemsLeft (feqLength s).toInt i := by simp only [turnsLeft, hk]
  unfold feqScan
  split
  · rename_i hi
    have hsucc := elemsLeft_succ_lt (feqLength s).toInt_lt (BitVec.slt_iff_toInt_lt.1 hi)
    refine .inr ?_
    rw [hleft]
    split
    · change 0 < _
      omega
    · split
      · change 2 * elemsLeft (feqLength s).toInt (i + 1) + 1 < _
        omega
      · change 2 * elemsLeft (feqLength s).toInt (i + 1) < _
        omega
  · exact .inl rfl

theorem feqHit_progress {i count : Word} {s : State} (hk : s.work = .feq16 i count .hit) :
    Progress s (feqHit i count s) := by
  have hleft : turnsLeft s = 2 * elemsLeft (feqLength s).toInt (i + 1) + 1 := by simp only [turnsLeft, hk]
  refine .inr ?_
  rw [hleft]
  unfold feqHit
  split
  · exact Nat.succ_pos _
  · split
    · exact Nat.succ_pos _
    · exact Nat.lt_succ_self _

theorem feq16Turn_progress {s : State} (hw : belongs .feq16 s.work = true) : Progress s (feq16Turn s) := by
  cases hk : s.work with
  | refused => simp only [feq16Turn, hk]; exact .inl rfl
  | feq16 i count phase =>
    simp only [feq16Turn, hk]
    cases phase with
    | scan => exact feqScan_progress hk
    | hit => exact feqHit_progress hk
    | stop => exact .inl rfl
  | _ => rw [hk] at hw; cases hw

/-- FMIN16 and FMAXA32 make progress with each element they read: what is left is at most what lies behind it. -/
theorem progress_of_scan {s t : State} {len i : Word} (hs : turnsLeft s = elemsLeft (max 1 len.toInt) i)
    (hi : i = 0 ∨ i.slt len) (ht : turnsLeft t ≤ elemsLeft (max 1 len.toInt) (i + 1)) : Progress s t := by
  refine .inr ?_
  rw [hs]
  exact Nat.lt_of_le_of_lt ht (elemsLeft_scan_succ_lt hi)

theorem fmin16Turn_progress {s : State} (hw : belongs .fmin16 s.work = true) : Progress s (fmin16Turn s) := by
  cases hk : s.work with
  | refused => simp only [fmin16Turn, hk]; exact .inl rfl
  | fmin16 i m =>
    have hleft : turnsLeft s = elemsLeft (max 1 (scanLength s).toInt) i := by simp only [turnsLeft, hk]
    simp only [fmin16Turn, hk]
    split
    · rename_i hi
      split
      · exact progress_of_scan hleft hi (Nat.zero_le _)
      · exact progress_of_scan hleft hi (Nat.le_refl _)
    · split <;> exact .inl rfl
  | _ => rw [hk] at hw; cases hw

theorem fmaxa32Turn_progress {s : State} (hw : belongs .fmaxa32 s.work = true) : Progress s (fmaxa32Turn s) := by
  cases hk : s.work with
  | refused => simp only [fmaxa32Turn, hk]; exact .inl rfl
  | fmaxa32 i amax =>
    have hleft : turnsLeft s = elemsLeft (max 1 (scanLength s).toInt) i := by simp only [turnsLeft, hk]
    simp only [fmaxa32Turn, hk]
    split
    · rename_i hi
      split
      · exact progress_of_scan hleft hi (Nat.zero_le _)
      · exact progress_of_scan hleft hi (Nat.le_refl _)
    · split <;> exact .inl rfl
  | _ => rw [hk] at hw; cases hw

theorem unitTurn_progress {i : Instr} {s : State} (hw : belongs i s.work = true) (he : EdgeFree s) :
    Progress s (unitTurn i s) := by
  cases i with
  | gcd => exact .inl (gcdTurn_ends hw he)
  | crc32 => exact crc32Turn_progress hw
  | fls => exact .inl (flsTurn_ends hw)
  | norm => exact .inl (normTurn_ends hw)
  | feq16 => exact feq16Turn_progress hw
  | fmin16 => exact fmin16Turn_progress hw
  | fmaxa32 => exact fmaxa32Turn_progress hw

/-! ### The operation ends -/

/-- While the operation goes on, the working registers stay those of its unit. -/
theorem EngineStep.belongs {i : Instr} {s t : State} (h : EngineStep i s t) (hw : belongs i s.work = true)
    (hb : t.status.busy = true) : belongs i t.work = true := by
  cases h with
  | stay | draw => exact hw
  | advance _ hw' => exact hw'
  | write _ _ _ _ _ _ _ hw' => exact hw'
  | complete | completeAny | edge | busFault => cases hb

/-- An operation that is no longer in flight has ended by a completion step (R95). -/
theorem EngineStep.ended {i : Instr} {s t : State} (h : EngineStep i s t) (hs : s.status.busy = true)
    (ht : t.status.busy = false) : Ended t := by
  cases h with
  | stay | draw | advance | write => simp [hs] at ht
  | complete | completeAny | edge => exact ⟨rfl, rfl, .inl rfl⟩
  | busFault => exact ⟨rfl, rfl, .inr rfl⟩

/-- Only a GCD can be under the edge. -/
theorem edgeFree_of_belongs {i : Instr} {s : State} (hw : belongs i s.work = true) (hi : i ≠ .gcd) : EdgeFree s := by
  intro a b k hk
  rw [hk] at hw
  cases i with
  | gcd => exact absurd rfl hi
  | _ => cases hw

/-- A GCD outside the edge ends at its first step, and no step of another unit leads to it. -/
theorem unitTurn_edgeFree {i : Instr} {s : State} (hw : belongs i s.work = true) (he : EdgeFree s)
    (hb : (unitTurn i s).status.busy = true) : EdgeFree (unitTurn i s) := by
  refine edgeFree_of_belongs ((unitTurn_step i s).belongs hw hb) ?_
  rintro rfl
  exact absurd (hb.symm.trans (gcdTurn_ends hw he)) Bool.noConfusion

/-- An operation outside the edge ends within one engine step more than it has left before its completion. -/
theorem runTurns_ended {i : Instr} {s : State} {fuel : Nat} (hb : s.status.busy = true)
    (hw : belongs i s.work = true) (he : EdgeFree s) (hf : turnsLeft s < fuel) :
    Ended (runTurns (unitTurn i) fuel s) := by
  induction fuel generalizing s with
  | zero => exact absurd hf (Nat.not_lt_zero _)
  | succ fuel ih =>
    rw [runTurns_busy fuel hb]
    cases ht : (unitTurn i s).status.busy with
    | false =>
      rw [runTurns_idle fuel ht]
      exact (unitTurn_step i s).ended hb ht
    | true =>
      obtain hend | hlt := unitTurn_progress hw he
      · simp [ht] at hend
      · exact ih ht ((unitTurn_step i s).belongs hw ht) (unitTurn_edgeFree hw he ht) (by omega)

/-! ### From acceptance -/

/-- The absolute value of R112 is `INT32_MIN` for `INT32_MIN` only. -/
theorem absWord_eq_int32Min_iff (v : Word) : absWord v = int32Min ↔ v = int32Min := by
  unfold absWord
  split
  · have hneg : 0 - v = int32Min ↔ v = int32Min := by
      constructor <;> intro h <;> bv_omega
    exact hneg
  · exact Iff.rfl

/-- Every command is issued with the working registers of its own unit and with as many engine steps as it can need,
whatever the agents do next. -/
theorem exec_eq_issue_enough (i : Instr) (s : State) :
    ∃ start fuel, belongs i start = true ∧ turnsLeft (State.accept i start s) < fuel ∧
      (¬GcdEdge i s → EdgeFree (State.accept i start s)) ∧
      ∀ turns, exec i { s with schedule := turns } = issue i start fuel (unitTurn i) { s with schedule := turns } := by
  have hedge : ∀ start, belongs i start = true → i ≠ .gcd → EdgeFree (State.accept i start s) :=
    fun _ hw hi => edgeFree_of_belongs hw hi
  cases i with
  | gcd =>
    refine ⟨.gcd (absWord (gcdA s)) (absWord (gcdB s)) 0, 1, rfl, Nat.zero_lt_one, fun hno => ?_, fun _ => rfl⟩
    rintro _ _ _ ⟨⟩
    simp only [ne_eq, absWord_eq_int32Min_iff]
    cases hp : s.cfg.gcdMinPolicy with
    | refuse => exact .inr (not_or.1 fun h => hno ⟨rfl, hp, h⟩)
    | unsignedMagnitude => exact .inl hp
  | crc32 =>
    exact ⟨.crc32 (~~~(crcBase s)) 0 0 0, (crcLength s).toNat + 1, rfl, Nat.lt_succ_of_le (Nat.sub_le _ _),
      fun _ => hedge _ rfl nofun, fun _ => rfl⟩
  | fls => exact ⟨.fls (flsX s) 32, 1, rfl, Nat.zero_lt_one, fun _ => hedge _ rfl nofun, fun _ => rfl⟩
  | norm => exact ⟨.norm (normVal s) 0, 1, rfl, Nat.zero_lt_one, fun _ => hedge _ rfl nofun, fun _ => rfl⟩
  | feq16 =>
    refine ⟨.feq16 0 0 .scan, 2 * lengthOf (feqLength s) + 1, rfl, ?_, fun _ => hedge _ rfl nofun, fun _ => rfl⟩
    change 2 * elemsLeft (feqLength s).toInt 0 < 2 * lengthOf (feqLength s) + 1
    rw [elemsLeft_zero]
    exact Nat.lt_succ_self _
  | fmin16 =>
    exact ⟨.fmin16 0 0, lengthOf (scanLength s) + 2, rfl, elemsLeft_scan_zero_lt _, fun _ => hedge _ rfl nofun,
      fun _ => rfl⟩
  | fmaxa32 =>
    exact ⟨.fmaxa32 0 0, lengthOf (scanLength s) + 2, rfl, elemsLeft_scan_zero_lt _, fun _ => hedge _ rfl nofun,
      fun _ => rfl⟩

/-- Settles O36: the fuel of the command's run is more than the engine steps the operation has left at acceptance. -/
theorem undisturbedCommandEnds : Obligations.UndisturbedCommandEnds := by
  intro i s hready hno
  have ⟨hidle, _, _⟩ := hready
  obtain ⟨start, fuel, hw, hf, he, hx⟩ := exec_eq_issue_enough i s
  have hrun : exec i s = .next _ := (hx s.schedule).trans (issue_ready hready)
  exact ⟨_, hrun, exec_kept hidle hrun, runTurns_ended rfl hw (he hno) hf⟩

/-! ### Engine steps as steps of the machine -/

/-- Under a quiet schedule the machine's step is the engine's, until DONE = 1. -/
theorem step_quiet {s : State} (hq : quiet s = true) (ha : s.resetAsserted = false) (hd : s.status.done = false) :
    step s = .next (engineTurn s) := by
  unfold quiet at hq
  split at hq
  · rename_i hs
    rw [step_eq_otherTurn (by simp [hs]), otherTurn, hs]
  · rename_i rest hs
    rw [step_wait hs, hostWait_not_done rest ha hd]
  · cases hq

theorem engineTurn_of_opl {i : Instr} {s : State} (hb : s.status.busy = true) (ha : s.resetAsserted = false)
    (ho : s.opl = opcodeOf i) : engineTurn s = unitTurn i s := by
  simp [engineTurn, hb, ha, ho]

/-- A run of the unit in flight is so many steps of the machine, as long as no other agent moves
(40_command_lifecycle.md R94, 20_memory.md R56). -/
theorem runSteps_eq_runTurns {i : Instr} {s : State} (fuel : Nat) (hl : Lifecycle s) (hq : quiet s = true)
    (ho : s.status.busy = true → s.opl = opcodeOf i) :
    ∃ k, runSteps k s = .next (runTurns (unitTurn i) fuel s) := by
  induction fuel generalizing s with
  | zero => exact ⟨0, rfl⟩
  | succ fuel ih =>
    cases hb : s.status.busy with
    | false => exact ⟨0, by rw [runTurns_idle _ hb]; rfl⟩
    | true =>
      have hstep := unitTurn_step i s
      obtain ⟨hd, -, -, ha⟩ := hl.in_flight hb
      obtain ⟨-, -, -, -, hs, -⟩ := hstep.kept
      obtain ⟨k, hk⟩ := ih (hstep.lifecycle hl hb (ho hb)) (by rw [quiet, hs]; exact hq)
        (fun ht => (hstep.opl_eq ht).trans (ho hb))
      refine ⟨k + 1, ?_⟩
      rw [runTurns_busy fuel hb, runSteps, step_quiet hq ha hd, engineTurn_of_opl hb ha (ho hb)]
      exact hk

/-- Settles O35: an engine turn that is scheduled first leaves the acceptance alone, and the run from there is the
machine's own steps. -/
theorem undisturbedRunIsEngineTurns : Obligations.UndisturbedRunIsEngineTurns := by
  intro i s hb hp hq ha
  obtain ⟨start, fuel, hw, -, -, hx⟩ := exec_eq_issue_enough i s
  obtain ⟨k, hk⟩ := runSteps_eq_runTurns (s := State.accept i start s) fuel (lifecycle_accept hw ha) hq fun _ => rfl
  refine ⟨start, _, k, hw, rfl, ?_, ?_⟩
  · rw [hx]
    simp [issue, quiet, hb, hp]
  · exact hk.trans ((hx s.schedule).trans (issue_ready ⟨hb, hp, hq⟩)).symm

/-- Settles O37: the run of the unit in flight for one step more than it has left. -/
theorem operationEnds : Obligations.OperationEnds := by
  intro s hl hb _ hq he
  have ⟨_, hflight, _, _⟩ := hl
  obtain ⟨i, ho, hw⟩ := hflight hb
  obtain ⟨k, hk⟩ := runSteps_eq_runTurns (turnsLeft s + 1) hl hq fun _ => ho
  obtain ⟨hb', hd', -⟩ := runTurns_ended hb hw he (Nat.lt_succ_self _)
  obtain ⟨-, -, -, -, hs, -⟩ := runTurns_kept (unitTurn_step i) (turnsLeft s + 1) s
  exact ⟨k, _, hk, hs, hb', hd'⟩

end Sys2Proof.Machine
end

section
/-! The binary algorithm of 41_gcd.md R112 on words: what each of its loops does to the values it starts from, and so
that its result is the greatest common divisor, for all words. -/

namespace Sys2Proof.Machine

open Sys2Proof.Safety

/-! ### Bits and shifts as arithmetic -/

theorem getLsbD_zero_iff (w : Word) : w.getLsbD 0 = true ↔ w.toNat % 2 = 1 := by
  simp [BitVec.getLsbD]

theorem toNat_half (w : Word) : (w >>> 1).toNat = w.toNat / 2 := by
  rw [BitVec.toNat_ushiftRight, Nat.shiftRight_eq_div_pow, pow_one]

/-- Halving an even value does not lose its last bit. -/
theorem half_ne_zero {w : Word} (h0 : w ≠ 0) (heven : w.toNat % 2 ≠ 1) : w >>> 1 ≠ 0 := by
  have hpos := BitVec.toNat_pos_of_ne_zero h0
  refine BitVec.toNat_ne.2 ?_
  rw [toNat_half]
  change w.toNat / 2 ≠ 0
  omega

/-- The magnitude of R112, read unsigned, is exact also for `INT32_MIN` (R113). -/
theorem absWord_toNat (v : Word) : (absWord v).toNat = v.toInt.natAbs := by
  rw [absWord, BitVec.toInt_eq_msb_cond]
  split
  · rw [show 0 - v = -v from BitVec.zero_sub v, BitVec.toNat_neg]
    have hmsb : 2 ^ 31 ≤ v.toNat := BitVec.le_toNat_of_msb_true ‹_›
    omega
  · rfl

/-- A power of two does not count against an odd number. -/
theorem gcd_two_pow_mul_right {a : Nat} (ha : a % 2 = 1) (j b : Nat) : Nat.gcd a (2 ^ j * b) = Nat.gcd a b :=
  Nat.Coprime.gcd_mul_left_cancel_right b ((Nat.coprime_two_left.2 (Nat.odd_iff.2 ha)).pow_left j)

/-! ### The loops -/

/-- Making a value odd takes a power of two out of it. -/
theorem makeOdd_spec {fuel : Nat} {b : Word} (h0 : b ≠ 0) (hf : b.toNat < 2 ^ fuel) :
    (makeOdd fuel b).toNat % 2 = 1 ∧ ∃ j, b.toNat = 2 ^ j * (makeOdd fuel b).toNat := by
  induction fuel generalizing b with
  | zero => exact absurd (BitVec.toNat_pos_of_ne_zero h0) (by omega)
  | succ fuel ih =>
    unfold makeOdd
    split
    · rename_i hodd
      exact ⟨(getLsbD_zero_iff b).1 hodd, 0, by simp⟩
    · rename_i heven
      rw [getLsbD_zero_iff] at heven
      have hhalf := toNat_half b
      obtain ⟨hodd, j, hj⟩ := ih (half_ne_zero h0 heven) (by omega)
      refine ⟨hodd, j + 1, ?_⟩
      rw [pow_succ', mul_assoc, ← hj]
      omega

theorem makeOdd_odd {b : Word} (h0 : b ≠ 0) : (makeOdd 32 b).toNat % 2 = 1 := (makeOdd_spec h0 b.isLt).1

/-- An even value is at least halved. -/
theorem makeOdd_le_half {b : Word} (h0 : b ≠ 0) (heven : b.toNat % 2 = 0) : 2 * (makeOdd 32 b).toNat ≤ b.toNat := by
  obtain ⟨hodd, j, hj⟩ := makeOdd_spec h0 b.isLt
  cases j with
  | zero => omega
  | succ j =>
    rw [hj, pow_succ', mul_assoc]
    exact Nat.mul_le_mul_left 2 (Nat.le_mul_of_pos_left _ (by positivity))

theorem gcd_makeOdd_right {a : Nat} {b : Word} (ha : a % 2 = 1) (h0 : b ≠ 0) :
    Nat.gcd a (makeOdd 32 b).toNat = Nat.gcd a b.toNat := by
  obtain ⟨-, j, hj⟩ := makeOdd_spec h0 b.isLt
  rw [hj, gcd_two_pow_mul_right ha]

/-- "make a odd" keeps the greatest common divisor once not both values are even. -/
theorem gcd_makeOdd_left {a b : Word} (h0 : a ≠ 0) (h : a.toNat % 2 = 1 ∨ b.toNat % 2 = 1) :
    Nat.gcd (makeOdd 32 a).toNat b.toNat = Nat.gcd a.toNat b.toNat := by
  obtain ha | hb := h
  · rw [makeOdd, if_pos ((getLsbD_zero_iff a).2 ha)]
  · rw [Nat.gcd_comm, gcd_makeOdd_right hb h0, Nat.gcd_comm]

/-- The common factor that is taken out is `2 ^ j`, `k` has counted its exponent, and not both values are even then. -/
theorem takeCommonTwos_spec {fuel : Nat} {a b : Word} {k : BitVec 5} {t : Word × Word × BitVec 5} (h0 : a ≠ 0)
    (hf : a.toNat < 2 ^ fuel) (hk : k.toNat + fuel ≤ 32) (ht : takeCommonTwos fuel a b k = t) :
    ∃ j, a.toNat = 2 ^ j * t.1.toNat ∧ b.toNat = 2 ^ j * t.2.1.toNat ∧ t.2.2.toNat = k.toNat + j ∧
      (t.1.toNat % 2 = 1 ∨ t.2.1.toNat % 2 = 1) := by
  induction fuel generalizing a b k with
  | zero => exact absurd (BitVec.toNat_pos_of_ne_zero h0) (by omega)
  | succ fuel ih =>
    unfold takeCommonTwos at ht
    split at ht
    · rename_i hodd
      subst ht
      rw [BitVec.getLsbD_or, Bool.or_eq_true, getLsbD_zero_iff, getLsbD_zero_iff] at hodd
      exact ⟨0, by simp, by simp, rfl, hodd⟩
    · rename_i heven
      rw [BitVec.getLsbD_or, Bool.or_eq_true, getLsbD_zero_iff, getLsbD_zero_iff] at heven
      have hhalf := toNat_half a
      have hpos := BitVec.toNat_pos_of_ne_zero h0
      have hcount : 0 < fuel := Nat.pos_of_ne_zero (by rintro rfl; omega)
      have hsucc : (k + 1).toNat = k.toNat + 1 := BitVec.toNat_add_of_lt (by simp; omega)
      obtain ⟨j, ha, hb, hj, hodd⟩ := ih (half_ne_zero h0 fun h => heven (.inl h)) (by omega) (by omega) ht
      refine ⟨j + 1, ?_, ?_, by omega, hodd⟩
      · rw [pow_succ', mul_assoc, ← ha]
        omega
      · rw [pow_succ', mul_assoc, ← hb, toNat_half]
        omega

/-- One round of the `repeat` of R112 from its odd values `low ≤ high`, given what the rounds after it do. The
difference is even, so making it odd halves the product that bounds the rounds (R116). -/
theorem subtractRound_toNat {fuel : Nat} {low high : Word}
    (ih : ∀ b : Word, b ≠ 0 → low.toNat * (makeOdd 32 b).toNat < 2 ^ fuel →
      (subtractLoop fuel low b).toNat = Nat.gcd low.toNat b.toNat)
    (hlow : low.toNat % 2 = 1) (hhigh : high.toNat % 2 = 1) (hle : low.toNat ≤ high.toNat)
    (hf : low.toNat * high.toNat < 2 ^ (fuel + 1)) :
    (if high - low = 0 then low else subtractLoop fuel low (high - low)).toNat = Nat.gcd low.toNat high.toNat := by
  have hsub : (high - low).toNat = high.toNat - low.toNat := BitVec.toNat_sub_of_le hle
  rw [← Nat.gcd_sub_self_right hle, ← hsub]
  split
  · rename_i he
    simp [he]
  · rename_i hne
    refine ih _ hne ?_
    have hhalf := makeOdd_le_half hne (by omega)
    have hbound := Nat.mul_le_mul_left low.toNat (show 2 * (makeOdd 32 (high - low)).toNat ≤ high.toNat by omega)
    rw [Nat.mul_left_comm] at hbound
    omega

/-- The `repeat` of R112 finds the greatest common divisor of an odd `a` and a nonzero `b`, within as many rounds as the
product of `a` and the odd part of `b` has bits (R116). -/
theorem subtractLoop_toNat {fuel : Nat} {a b : Word} (ha : a.toNat % 2 = 1) (h0 : b ≠ 0)
    (hf : a.toNat * (makeOdd 32 b).toNat < 2 ^ fuel) : (subtractLoop fuel a b).toNat = Nat.gcd a.toNat b.toNat := by
  have hodd := makeOdd_odd h0
  induction fuel generalizing a b with
  | zero =>
    have := Nat.mul_pos (show 0 < a.toNat by omega) (show 0 < (makeOdd 32 b).toNat by omega)
    omega
  | succ fuel ih =>
    rw [← gcd_makeOdd_right ha h0]
    unfold subtractLoop
    by_cases hgt : a > makeOdd 32 b
    · simp only [hgt, if_true]
      rw [Nat.gcd_comm]
      rw [Nat.mul_comm] at hf
      exact subtractRound_toNat (fun c hc h => ih hodd hc h (makeOdd_odd hc)) hodd ha (Nat.le_of_lt hgt) hf
    · simp only [hgt, if_false]
      exact subtractRound_toNat (fun c hc h => ih ha hc h (makeOdd_odd hc)) ha hodd (Nat.le_of_not_lt hgt) hf

/-- The algorithm of R112 computes the greatest common divisor of any two words read unsigned. -/
theorem gcdWords_toNat (a b : Word) : (gcdWords a b 0).toNat = Nat.gcd a.toNat b.toNat := by
  unfold gcdWords
  split
  · rename_i ha
    simp [ha]
  · rename_i ha
    split
    · rename_i hb
      simp [hb]
    · rename_i hb
      obtain ⟨t, ht⟩ : ∃ t, takeCommonTwos 32 a b 0 = t := ⟨_, rfl⟩
      obtain ⟨j, ea, eb, ej, hodd⟩ := takeCommonTwos_spec ha a.isLt (by decide) ht
      have ha' : t.1 ≠ 0 := fun e => ha (BitVec.eq_of_toNat_eq (by simpa [e] using ea))
      have hb' : t.2.1 ≠ 0 := fun e => hb (BitVec.eq_of_toNat_eq (by simpa [e] using eb))
      have hloop := subtractLoop_toNat (fuel := 64) (makeOdd_odd ha') hb'
        (Nat.mul_lt_mul'' (c := 2 ^ 32) (d := 2 ^ 32) (makeOdd 32 t.1).isLt (makeOdd 32 t.2.1).isLt)
      have hgcd : Nat.gcd a.toNat b.toNat = Nat.gcd t.1.toNat t.2.1.toNat * 2 ^ j := by
        rw [ea, eb, Nat.gcd_mul_left, Nat.mul_comm]
      have hfits : Nat.gcd a.toNat b.toNat < 2 ^ 32 :=
        (Nat.gcd_le_left _ (BitVec.toNat_pos_of_ne_zero ha)).trans_lt a.isLt
      have hshift : t.2.2.toNat = j := by simpa using ej
      simp only [ht, hshift]
      rw [BitVec.toNat_shiftLeft, hloop, gcd_makeOdd_left ha' hodd, Nat.shiftLeft_eq, ← hgcd, Nat.mod_eq_of_lt hfits]

/-- `gcd` of R112 as a number (R111). -/
theorem gcdOf_toNat (a b : Word) : (gcdOf a b).toNat = Nat.gcd a.toInt.natAbs b.toInt.natAbs := by
  rw [gcdOf, gcdWords_toNat, absWord_toNat, absWord_toNat]

end Sys2Proof.Machine
end

section
/-! The command GCD (41_gcd.md R110 to R115): its one completion step from the two operands, outside the `INT32_MIN`
edge of R113 and under it, and the laws of the result. -/

namespace Sys2Proof.Machine

open Sys2Proof.Safety

/-! ### The completion step -/

/-- A GCD in flight: the working registers hold the magnitudes of the operands. -/
def gcdAccepted (s : State) : State := State.accept .gcd (.gcd (absWord (gcdA s)) (absWord (gcdB s)) 0) s

/-- An undisturbed GCD takes one engine step (40_command_lifecycle.md R94). -/
theorem exec_gcd_ready {s : State} (hr : Ready .gcd s) : exec .gcd s = .next (gcdTurn (gcdAccepted s)) :=
  issue_ready hr

theorem gcdTurn_edge {s : State} (hp : s.cfg.gcdMinPolicy = .refuse) (hm : gcdA s = int32Min ∨ gcdB s = int32Min) :
    gcdTurn (gcdAccepted s) = gcdMinEdge (gcdAccepted s) := by
  rw [← absWord_eq_int32Min_iff, ← absWord_eq_int32Min_iff (gcdB s)] at hm
  exact if_pos ⟨hp, hm⟩

theorem gcdTurn_complete {s : State}
    (he : s.cfg.gcdMinPolicy = .unsignedMagnitude ∨ (gcdA s ≠ int32Min ∧ gcdB s ≠ int32Min)) :
    gcdTurn (gcdAccepted s) = State.complete (gcdOf (gcdA s) (gcdB s)) (gcdAccepted s) := by
  refine if_neg ?_
  rw [absWord_eq_int32Min_iff, absWord_eq_int32Min_iff]
  rintro ⟨hp, hm⟩
  obtain hu | ⟨ha, hb⟩ := he
  · cases hp.symm.trans hu
  · exact hm.elim ha hb

/-- Outside the edge an undisturbed GCD completes with the value of R112. -/
theorem exec_gcd_complete {s : State} (hr : Ready .gcd s)
    (he : s.cfg.gcdMinPolicy = .unsignedMagnitude ∨ (gcdA s ≠ int32Min ∧ gcdB s ≠ int32Min)) :
    ∃ t, exec .gcd s = .next t ∧ Completed s t ∧ t.mem = s.mem ∧ Result t (gcdOf (gcdA s) (gcdB s)) := by
  rw [exec_gcd_ready hr, gcdTurn_complete he]
  exact ⟨_, rfl, ⟨rfl, rfl, rfl, rfl, rfl, rfl, rfl⟩, rfl, rfl, rfl⟩

/-! ### The result as a number -/

/-- The result as the pattern of the number (R111). -/
theorem gcdOf_eq_ofNat (a b : Word) : gcdOf a b = BitVec.ofNat 32 (Nat.gcd a.toInt.natAbs b.toInt.natAbs) := by
  rw [← gcdOf_toNat, BitVec.ofNat_toNat, BitVec.setWidth_eq]

theorem gcd_le_of_le {m n N : Nat} (hm : m ≤ N) (hn : n ≤ N) : Nat.gcd m n ≤ N := by
  obtain rfl | hpos := Nat.eq_zero_or_pos m
  · rwa [Nat.gcd_zero_left]
  · exact (Nat.gcd_le_left n hpos).trans hm

theorem natAbs_toInt_le (v : Word) : v.toInt.natAbs ≤ 2 ^ 31 := by
  have := v.le_toInt
  have := v.toInt_lt
  omega

theorem natAbs_toInt_lt {v : Word} (h : v ≠ int32Min) : v.toInt.natAbs < 2 ^ 31 := by
  have hne : v.toInt ≠ -2 ^ 31 := fun e => h (BitVec.eq_of_toInt_eq e)
  have := v.le_toInt
  have := v.toInt_lt
  omega

theorem gcd_natAbs_lt {a b : Word} (ha : a ≠ int32Min) (hb : b ≠ int32Min) :
    Nat.gcd a.toInt.natAbs b.toInt.natAbs < 2 ^ 31 :=
  Nat.lt_of_le_pred (by decide)
    (gcd_le_of_le (Nat.le_pred_of_lt (natAbs_toInt_lt ha)) (Nat.le_pred_of_lt (natAbs_toInt_lt hb)))

/-- Settles O38: outside the edge the completion step returns the value of R112, which is the divisor of R111. -/
theorem gcdReturnsGreatestCommonDivisor : Obligations.GcdReturnsGreatestCommonDivisor := by
  intro s hr ha hb
  rw [← gcdOf_eq_ofNat]
  obtain ⟨t, hx, hc, hm, hres⟩ := exec_gcd_complete hr (.inr ⟨ha, hb⟩)
  exact ⟨t, hx, hc, hm, hres, gcd_natAbs_lt ha hb⟩

/-- Settles O39: under this policy no operand is on the edge, and a magnitude is at most `2^31`. -/
theorem gcdUnsignedMagnitude : Obligations.GcdUnsignedMagnitude := by
  intro s hr hp
  rw [← gcdOf_eq_ofNat]
  obtain ⟨t, hx, hc, hm, hres⟩ := exec_gcd_complete hr (.inl hp)
  exact ⟨t, hx, hc, hm, hres, gcd_le_of_le (natAbs_toInt_le _) (natAbs_toInt_le _)⟩

/-- Settles O40: the two outcomes of `gcdMinEdge` after the acceptance. -/
theorem gcdMinEdgeIsFree : Obligations.GcdMinEdgeIsFree := by
  intro s hr hp hm
  rw [exec_gcd_ready hr, gcdTurn_edge hp hm]
  cases hc : Config.gcdMinCompletes (s.draws + 1) with
  | true =>
    have hedge : gcdMinEdge (gcdAccepted s) = State.completeAny { gcdAccepted s with draws := s.draws + 2 } := if_pos hc
    rw [hedge]
    exact ⟨_, rfl, ⟨rfl, rfl, rfl, rfl, rfl, rfl⟩, rfl, rfl, ⟨rfl, rfl, rfl, rfl, rfl, rfl, rfl⟩, rfl⟩
  | false =>
    have hedge : gcdMinEdge (gcdAccepted s) = { gcdAccepted s with draws := s.draws + 2 } :=
      if_neg (Bool.eq_false_iff.1 hc)
    rw [hedge]
    exact ⟨_, rfl, ⟨rfl, rfl, rfl, rfl, rfl, rfl⟩, rfl, rfl, rfl, rfl, rfl, rfl⟩

/-! ### The laws -/

theorem absWord_absWord (v : Word) : absWord (absWord v) = absWord v := by
  by_cases hmsb : (absWord v).msb = true
  · have hlow : 2 ^ 31 ≤ (absWord v).toNat := BitVec.le_toNat_of_msb_true hmsb
    have hhigh := natAbs_toInt_le v
    rw [← absWord_toNat] at hhigh
    have hmin : absWord v = int32Min := BitVec.eq_of_toNat_eq (Nat.le_antisymm hhigh hlow)
    rw [hmin]
    rfl
  · exact if_neg hmsb

theorem gcdOf_comm (a b : Word) : gcdOf a b = gcdOf b a := by
  rw [gcdOf_eq_ofNat, Nat.gcd_comm, ← gcdOf_eq_ofNat]

theorem gcdOf_absWord (a b : Word) : gcdOf a b = gcdOf (absWord a) (absWord b) := by
  rw [gcdOf, gcdOf, absWord_absWord, absWord_absWord]

/-- A result outside the edge reads the same as `s32`. -/
theorem gcdOf_toInt {a b : Word} (ha : a ≠ int32Min) (hb : b ≠ int32Min) :
    (gcdOf a b).toInt = Nat.gcd a.toInt.natAbs b.toInt.natAbs := by
  have hlt := gcd_natAbs_lt ha hb
  rw [← gcdOf_toNat] at hlt ⊢
  exact BitVec.toInt_eq_toNat_of_lt (by omega)

/-- Settles O41: the laws of the greatest common divisor of the magnitudes. -/
theorem gcdLaws : Obligations.GcdLaws := by
  refine fun a b ha hb => ⟨gcdOf_comm a b, gcdOf_absWord a b, fun h0 _ => ⟨?_, ?_, fun d hda hdb => ?_⟩⟩
  · rw [gcdOf_toInt ha hb]
    exact Int.emod_eq_zero_of_dvd (Int.natCast_dvd.2 (Nat.gcd_dvd_left _ _))
  · rw [gcdOf_toInt ha hb]
    exact Int.emod_eq_zero_of_dvd (Int.natCast_dvd.2 (Nat.gcd_dvd_right _ _))
  · rw [gcdOf_toNat]
    have hpos : 0 < a.toInt.natAbs := Int.natAbs_pos.2 fun e => h0 (BitVec.eq_of_toInt_eq e)
    exact Nat.le_of_dvd (Nat.gcd_pos_of_pos_left _ hpos) (Nat.dvd_gcd (Int.natCast_dvd.1 hda) (Int.natCast_dvd.1 hdb))

end Sys2Proof.Machine
end

section
/-! `falign` (41_gcd.md R117, R118): the host's `call GCD` as five steps of the machine, the sequence up to its last
division, and the three ways it can end. -/

namespace Sys2Proof.Machine

open Sys2Proof.Safety

/-! ### Runs step by step -/

theorem runSteps_next {s t : State} (h : step s = .next t) (k : Nat) : runSteps (k + 1) s = runSteps k t := by
  rw [runSteps, h]

theorem runSteps_fault {s : State} {f : Fault} (h : step s = .fault f) (k : Nat) : runSteps (k + 1) s = .fault f := by
  rw [runSteps, h]

theorem runSteps_one (s : State) : runSteps 1 s = step s := by
  rw [runSteps]
  cases step s <;> rfl

/-! ### The turns of a `call` (30_encoding.md R80) -/

theorem step_wrArg {s : State} {i : Fin 5} {v : Word} {rest : List Turn} (hb : s.status.busy = false)
    (ha : s.resetAsserted = false) (hs : s.schedule = wrArg i v :: rest) :
    step s = .next { s with schedule := rest, args := Args.set s.args i v } :=
  ((operandWriteOrOverrun s i v rest ha hs).1 hb).1

theorem step_wrCommand {s : State} {i : Instr} {rest : List Turn} (ha : s.resetAsserted = false)
    (hs : s.schedule = wrCommand i :: rest) : step s = exec i { s with schedule := rest } :=
  step_write_command ha hs rfl rfl (decode_encode i)

theorem step_wait_done {s : State} {rest : List Turn} (ha : s.resetAsserted = false) (hd : s.status.done = true)
    (hs : s.schedule = .wait :: rest) :
    step s = .next (State.returnData (statusWord s.status) { s with schedule := rest }) :=
  (waitPollsUntilDone s rest ha hs).1 hd

theorem step_rdRes {s : State} {rest : List Turn} (ha : s.resetAsserted = false) (ho : s.resOpen = false)
    (hs : s.schedule = rdRes :: rest) : step s = .next (State.returnData s.res { s with schedule := rest }) :=
  (registerReadValues s _ rest ha hs).2.1 rfl ho

/-! ### `call GCD` -/

/-- The host of `s` holds the datum `r` in `t` and goes on with `rest`; the engine is idle behind a completed command,
and neither memory, the parameters nor OVR have changed. -/
structure HostHolds (s t : State) (r : Word) (rest : List Turn) : Prop where
  datum : t.seen.head? = some r
  schedule : t.schedule = rest
  status : t.status = { busy := false, done := true, err := 0, ovr := s.status.ovr }
  released : t.resetAsserted = false
  mem : t.mem = s.mem
  cfg : t.cfg = s.cfg

/-- What the host holds after two sequences, one after the other. -/
theorem HostHolds.trans {s t u : State} {r q : Word} {rest rest' : List Turn} (h : HostHolds s t r rest)
    (h' : HostHolds t u q rest') : HostHolds s u q rest' where
  datum := h'.datum
  schedule := h'.schedule
  status := by rw [h'.status, h.status]
  released := h'.released
  mem := h'.mem.trans h.mem
  cfg := h'.cfg.trans h.cfg

/-- The host has written the two operands of a GCD and goes on with `rest`. -/
def gcdLoaded (s : State) (x y : Word) (rest : List Turn) : State :=
  { s with schedule := rest, args := Args.set (Args.set s.args 0 x) 1 y }

theorem runSteps_gcdLoaded {s : State} {x y : Word} {rest : List Turn} (hb : s.status.busy = false)
    (ha : s.resetAsserted = false) (hs : s.schedule = wrArg 0 x :: wrArg 1 y :: rest) (k : Nat) :
    runSteps (k + 2) s = runSteps k (gcdLoaded s x y rest) := by
  have hsecond := step_wrArg (s := { s with schedule := wrArg 1 y :: rest, args := Args.set s.args 0 x }) hb ha rfl
  rw [runSteps_next (step_wrArg hb ha hs), runSteps_next hsecond]
  rfl

theorem call_gcd_append (x y : Word) (rest : List Turn) :
    call .gcd [x, y] ++ rest = wrArg 0 x :: wrArg 1 y :: wrCommand .gcd :: .wait :: rdRes :: rest := rfl

/-- `call GCD x, y` on an idle engine is five steps: two operand writes, the command, `wait`, `rd RES`. -/
theorem runSteps_call_gcd {s : State} {x y : Word} {rest : List Turn} (hb : s.status.busy = false)
    (ha : s.resetAsserted = false) (hs : s.schedule = call .gcd [x, y] ++ rest) (hx : x ≠ int32Min)
    (hy : y ≠ int32Min) :
    ∃ t, HostHolds s t (gcdOf x y) rest ∧ ∀ k, runSteps (k + 5) s = runSteps k t := by
  have hcmd := step_wrCommand (s := gcdLoaded s x y (wrCommand .gcd :: .wait :: rdRes :: rest)) ha rfl
  obtain ⟨t, hexec, ⟨hst, hcfg, -, -, hres, hsch, -⟩, hmem, hr, ho⟩ :=
    exec_gcd_complete (s := gcdLoaded s x y (.wait :: rdRes :: rest)) ⟨hb, rfl, rfl⟩ (.inr ⟨hx, hy⟩)
  have hwait := step_wait_done (hres.trans ha) (by rw [hst]) hsch
  have hread := step_rdRes (s := State.returnData (statusWord t.status) { t with schedule := rdRes :: rest })
    (hres.trans ha) ho rfl
  refine ⟨State.returnData t.res { State.returnData (statusWord t.status) t with schedule := rest },
    ⟨congrArg some hr, rfl, hst, hres.trans ha, hmem, hcfg⟩, fun k => ?_⟩
  rw [call_gcd_append] at hs
  rw [runSteps_gcdLoaded hb ha hs, runSteps_next (hcmd.trans hexec), runSteps_next hwait]
  exact runSteps_next hread k

/-! ### The turns of `falign` -/

theorem step_falign {s : State} {ba far fs : Word} {rest : List Turn} (hs : s.schedule = .falign ba far fs :: rest) :
    step s = .next (falignBegin ba far fs { s with schedule := rest }) := by
  rw [step_eq_otherTurn (by simp [hs]), otherTurn, hs]

theorem step_falignDivide {s : State} {ba far : Word} {rest : List Turn}
    (hs : s.schedule = .falignDivide ba far :: rest) :
    step s = falignDivide ba far { s with schedule := rest } := by
  rw [step_eq_otherTurn (by simp [hs]), otherTurn, hs]

theorem step_falignFinish {s : State} {far num : Word} {rest : List Turn}
    (hs : s.schedule = .falignFinish far num :: rest) :
    step s = falignFinish far num { s with schedule := rest } := by
  rw [step_eq_otherTurn (by simp [hs]), otherTurn, hs]

theorem HostHolds.lastRead_eq {s t : State} {r : Word} {rest : List Turn} (h : HostHolds s t r rest)
    (turns : List Turn) : lastRead { t with schedule := turns } = (r, { t with schedule := turns }) := by
  obtain ⟨l, hl⟩ := List.head?_eq_some_iff.1 h.datum
  simp only [lastRead, hl]

/-- The host divides by the datum it holds, and makes the second `call GCD` (R117). -/
theorem step_falignDivide_next {s t : State} {ba far g : Word} {rest : List Turn}
    (h : HostHolds s t g (.falignDivide ba far :: rest)) (hg : g ≠ 0) :
    step t = .next { t with
      schedule := call .gcd [ba / g, far] ++ .falignFinish far (ba / g) :: rest } := by
  rw [step_falignDivide h.schedule, falignDivide, h.lastRead_eq]
  simp only [hg, if_false]

/-- A `g1` of 0 is the host's fault (R118). -/
theorem step_falignDivide_fault {s t : State} {ba far g : Word} {rest : List Turn}
    (h : HostHolds s t g (.falignDivide ba far :: rest)) (hg : g = 0) : step t = .fault .divisionByZero := by
  rw [step_falignDivide h.schedule, falignDivide, h.lastRead_eq, if_pos hg]

/-! ### Arguments and quotients below `2^31` (R118 c) -/

theorem ne_int32Min_of_nonneg {v : Word} (h : 0 ≤ v.toInt) : v ≠ int32Min := by
  rintro rfl
  exact absurd h (by decide)

theorem natAbs_toInt_of_nonneg {v : Word} (h : 0 ≤ v.toInt) : v.toInt.natAbs = v.toNat := by
  rw [BitVec.toInt_eq_toNat_of_lt (BitVec.toInt_pos_iff.1 h), Int.natAbs_natCast]

theorem gcdOf_toNat_of_nonneg {a b : Word} (ha : 0 ≤ a.toInt) (hb : 0 ≤ b.toInt) :
    (gcdOf a b).toNat = Nat.gcd a.toNat b.toNat := by
  rw [gcdOf_toNat, natAbs_toInt_of_nonneg ha, natAbs_toInt_of_nonneg hb]

theorem udiv_nonneg {v : Word} (h : 0 ≤ v.toInt) (g : Word) : 0 ≤ (v / g).toInt := by
  have hle : (v / g).toNat ≤ v.toNat := Nat.div_le_self _ _
  have hlt := BitVec.toInt_pos_iff.1 h
  exact BitVec.toInt_pos_iff.2 (by omega)

/-! ### The sequence -/

/-- `falign` on an idle engine is, after six turns, at its first division, and the host holds `g1` (R117). -/
theorem runSteps_falign_first {s : State} {ba far fs : Word} {rest : List Turn} (hb : s.status.busy = false)
    (ha : s.resetAsserted = false) (hs : s.schedule = .falign ba far fs :: rest) (hba : 0 ≤ ba.toInt)
    (hfs : 0 ≤ fs.toInt) :
    ∃ t, HostHolds s t (gcdOf ba fs) (.falignDivide ba far :: rest) ∧ ∀ k, runSteps (k + 6) s = runSteps k t := by
  obtain ⟨t, ht, hrun⟩ := runSteps_call_gcd (s := falignBegin ba far fs { s with schedule := rest }) hb ha rfl
    (ne_int32Min_of_nonneg hba) (ne_int32Min_of_nonneg hfs)
  exact ⟨t, ⟨ht.datum, ht.schedule, ht.status, ht.released, ht.mem, ht.cfg⟩,
    fun k => (runSteps_next (step_falign hs) (k + 5)).trans (hrun k)⟩

/-- From the first division with `g1 ≠ 0` it is, six turns later, at its last turn, and the host holds `g2` (R117). -/
theorem runSteps_falign_second {s t : State} {ba far g : Word} {rest : List Turn}
    (h : HostHolds s t g (.falignDivide ba far :: rest)) (hg : g ≠ 0) (hba : 0 ≤ ba.toInt) (hfar : 0 ≤ far.toInt) :
    ∃ u, HostHolds s u (gcdOf (ba / g) far) (.falignFinish far (ba / g) :: rest) ∧
      ∀ k, runSteps (k + 6) t = runSteps k u := by
  obtain ⟨u, hu, hrun⟩ := runSteps_call_gcd
    (s := { t with schedule := call .gcd [ba / g, far] ++ .falignFinish far (ba / g) :: rest })
    (by rw [h.status]) h.released rfl (ne_int32Min_of_nonneg (udiv_nonneg hba g)) (ne_int32Min_of_nonneg hfar)
  have hu' : HostHolds t u _ _ := ⟨hu.datum, hu.schedule, hu.status, hu.released, hu.mem, hu.cfg⟩
  exact ⟨u, h.trans hu', fun k => (runSteps_next (step_falignDivide_next h hg) (k + 5)).trans (hrun k)⟩

/-- `falign` on an idle engine with `g1 ≠ 0` is, after twelve turns, at its last turn (R117). -/
theorem runSteps_falign {s : State} {ba far fs : Word} {rest : List Turn} (hb : s.status.busy = false)
    (ha : s.resetAsserted = false) (hs : s.schedule = .falign ba far fs :: rest) (hba : 0 ≤ ba.toInt)
    (hfar : 0 ≤ far.toInt) (hfs : 0 ≤ fs.toInt) (hg : gcdOf ba fs ≠ 0) :
    ∃ t, HostHolds s t (gcdOf (ba / gcdOf ba fs) far) (.falignFinish far (ba / gcdOf ba fs) :: rest) ∧
      runSteps 13 s = falignFinish far (ba / gcdOf ba fs) { t with schedule := rest } := by
  obtain ⟨t, ht, hfirst⟩ := runSteps_falign_first hb ha hs hba hfs
  obtain ⟨u, hu, hsecond⟩ := runSteps_falign_second ht hg hba hfar
  refine ⟨u, hu, ?_⟩
  rw [hfirst 7, hsecond 1, runSteps_one, step_falignFinish hu.schedule]

/-! ### How it ends -/

/-- With arguments that are not zero both divisors are not zero (R118). -/
theorem gcdOf_ne_zero {a b : Word} (ha : 0 < a.toInt) (hb : 0 ≤ b.toInt) : gcdOf a b ≠ 0 := by
  intro h
  have hgcd := gcdOf_toNat_of_nonneg ha.le hb
  have hpos : 0 < a.toNat := BitVec.toNat_pos_of_ne_zero (by rintro rfl; exact absurd ha (by decide))
  rw [h] at hgcd
  exact absurd hgcd (Nat.gcd_pos_of_pos_left _ hpos).ne

theorem gcdOf_ne_zero_right {a b : Word} (ha : 0 ≤ a.toInt) (hb : 0 < b.toInt) : gcdOf a b ≠ 0 :=
  gcdOf_comm a b ▸ gcdOf_ne_zero hb ha

/-- The frame count of R117 for arguments in range. -/
theorem frameNum_toNat {ba fs : Word} (hba : 0 ≤ ba.toInt) (hfs : 0 ≤ fs.toInt) :
    (ba / gcdOf ba fs).toNat = ba.toNat / Nat.gcd ba.toNat fs.toNat := by
  rw [BitVec.toNat_udiv, gcdOf_toNat_of_nonneg hba hfs]

/-- The result of R117, multiplied first, for a product that fits. -/
theorem mul_udiv_gcdOf_toNat {far num : Word} (hnum : 0 ≤ num.toInt) (hfar : 0 ≤ far.toInt)
    (hfit : far.toNat * num.toNat < 2 ^ 32) :
    (far * num / gcdOf num far).toNat = far.toNat * num.toNat / Nat.gcd num.toNat far.toNat := by
  rw [BitVec.toNat_udiv, BitVec.toNat_mul_of_lt hfit, gcdOf_toNat_of_nonneg hnum hfar]

theorem falignFinish_next {s t : State} {far num g : Word} {rest turns : List Turn} (h : HostHolds s t g turns)
    (hg : g ≠ 0) (hfit : far.toNat * num.toNat < 2 ^ 32) :
    falignFinish far num { t with schedule := rest } =
      .next (State.returnData (far * num / g) { t with schedule := rest }) := by
  rw [falignFinish, h.lastRead_eq]
  simp only [hg, hfit, if_true, if_false]

theorem falignFinish_overflow {s t : State} {far num g : Word} {rest turns : List Turn} (h : HostHolds s t g turns)
    (hg : g ≠ 0) (hbig : 2 ^ 32 ≤ far.toNat * num.toNat) :
    falignFinish far num { t with schedule := rest } = .refused .falignOverflow := by
  rw [falignFinish, h.lastRead_eq]
  simp only [hg, hbig.not_gt, if_false]

theorem falignFinish_fault {s t : State} {far num g : Word} {rest turns : List Turn} (h : HostHolds s t g turns)
    (hg : g = 0) : falignFinish far num { t with schedule := rest } = .fault .divisionByZero := by
  rw [falignFinish, h.lastRead_eq, if_pos hg]

/-- Settles O58: the last turn with both divisors nonzero and a product that fits. -/
theorem falignReturnsLeastCommonMultiple : Obligations.FalignReturnsLeastCommonMultiple := by
  rintro s ba far fs rest _ hb ha hs hba hfar hfs rfl hfit
  rw [← frameNum_toNat hba.le hfs.le] at hfit ⊢
  have hnum := udiv_nonneg hba.le (gcdOf ba fs)
  obtain ⟨t, ht, hrun⟩ := runSteps_falign hb ha hs hba.le hfar.le hfs.le (gcdOf_ne_zero hba hfs.le)
  rw [falignFinish_next ht (gcdOf_ne_zero_right hnum hfar) hfit] at hrun
  have hvalue := mul_udiv_gcdOf_toNat hnum hfar.le hfit
  exact ⟨_, _, hrun, rfl, rfl, hvalue, hvalue.trans (by rw [Nat.lcm, Nat.mul_comm]), ht.mem, ht.status, ht.cfg⟩

/-- Settles O59: with `byte_align = 0` either `g1` or `g2` is `gcd(0, 0) = 0`; a product that does not fit is refused at
the last turn. -/
theorem falignFaultsOnZeroDivisor : Obligations.FalignFaultsOnZeroDivisor := by
  constructor
  · intro s far fs rest hb ha hs hfar hfs hzero
    by_cases hg : gcdOf 0 fs = 0
    · obtain ⟨t, ht, hfirst⟩ := runSteps_falign_first hb ha hs le_rfl hfs
      exact (hfirst 7).trans (runSteps_fault (step_falignDivide_fault ht hg) 6)
    · have hfar0 : far = 0 := hzero.resolve_left (by rintro rfl; exact hg rfl)
      obtain ⟨t, ht, hrun⟩ := runSteps_falign hb ha hs le_rfl hfar hfs hg
      have hquot : 0 / gcdOf 0 fs = 0 := BitVec.zero_udiv
      exact hrun.trans (falignFinish_fault ht (by rw [hquot, hfar0]; rfl))
  · intro s ba far fs rest hb ha hs hba hfar hfs hbig
    rw [← frameNum_toNat hba.le hfs.le] at hbig
    obtain ⟨t, ht, hrun⟩ := runSteps_falign hb ha hs hba.le hfar.le hfs.le (gcdOf_ne_zero hba hfs.le)
    exact hrun.trans (falignFinish_overflow ht (gcdOf_ne_zero_right (udiv_nonneg hba.le _) hfar) hbig)

end Sys2Proof.Machine
end

section
/-! CRC32 (42_crc32.md R130 to R134): the byte step of the unit is the whole-register form of the reflected CRC-32, the
engine steps of a command fold it over the bytes at `data`, and so the result and its laws. -/

namespace Sys2Proof.Machine

open Sys2Proof.Safety

/-! ### One byte -/

theorem crcBitSteps_eq_iterate (n : Nat) (c : Word) : crcBitSteps n c = crcShift^[n] c := by
  induction n generalizing c with
  | zero => rfl
  | succ n ih => exact ih (crcBitStep c)

/-- A part of the register whose low bit is clear is shifted without meeting the polynomial. -/
theorem crcShift_xor {h : Word} (c : Word) (h0 : h.getLsbD 0 = false) :
    crcShift (c ^^^ h) = crcShift c ^^^ h >>> 1 := by
  unfold crcShift
  rw [BitVec.getLsbD_xor, h0, Bool.xor_false, BitVec.ushiftRight_xor_distrib]
  split
  · rw [BitVec.xor_assoc, BitVec.xor_comm (h >>> 1), ← BitVec.xor_assoc]
  · rfl

/-- So is a part whose low `n` bits are clear, `n` times: this is why the fold of R131 may wait until the byte is
done. -/
theorem crcShift_iterate_xor (n : Nat) {h : Word} (c : Word) (hlow : ∀ i < n, h.getLsbD i = false) :
    crcShift^[n] (c ^^^ h) = crcShift^[n] c ^^^ h >>> n := by
  induction n generalizing c h with
  | zero => simp
  | succ n ih =>
    have hnext : ∀ i < n, (h >>> 1).getLsbD i = false := fun i hi => by
      rw [BitVec.getLsbD_ushiftRight]
      exact hlow _ (by omega)
    rw [Function.iterate_succ_apply, Function.iterate_succ_apply, crcShift_xor c (hlow 0 n.succ_pos), ih _ hnext,
      ← BitVec.shiftRight_add, Nat.add_comm 1 n]

/-- A word is its low byte and the rest. -/
theorem low_byte_xor_rest (w : Word) : (w &&& 0xFF#32) ^^^ (w >>> 8) <<< 8 = w := by
  refine BitVec.eq_of_getLsbD_eq fun i hi => ?_
  have hmask : (0xFF#32).getLsbD i = decide (i < 8) := by
    rw [BitVec.getLsbD_ofNat, show (0xFF : Nat) = 2 ^ 8 - 1 from rfl, Nat.testBit_two_pow_sub_one]
    simp [hi]
  rw [BitVec.getLsbD_xor, BitVec.getLsbD_and, BitVec.getLsbD_shiftLeft, BitVec.getLsbD_ushiftRight, hmask]
  by_cases h8 : i < 8
  · simp [h8]
  · simp [h8, hi, Nat.add_sub_cancel' (Nat.not_lt.1 h8)]

/-- The byte step of R131 is the usual form of the reflected CRC-32. -/
theorem crcByte_eq_crcRegister (c : Word) (d : Byte) : crcByte c d = crcRegister c d := by
  have hclear : ∀ i < 8, (((c ^^^ d.setWidth 32) >>> 8) <<< 8).getLsbD i = false := fun i hi => by
    simp [BitVec.getLsbD_shiftLeft, hi]
  have hrest : ((c ^^^ d.setWidth 32) >>> 8) <<< 8 >>> 8 = c >>> 8 := by
    have hback : ∀ w : Word, w >>> 8 <<< 8 >>> 8 = w >>> 8 := fun w => by bv_omega
    have hbyte : d.setWidth 32 >>> 8 = 0#32 := by bv_omega
    rw [hback, BitVec.ushiftRight_xor_distrib, hbyte, BitVec.xor_zero]
  calc crcByte c d
      = crcShift^[8] ((c ^^^ d.setWidth 32) &&& 0xFF#32) ^^^ c >>> 8 := by
        rw [crcByte, crcCur, crcBitSteps_eq_iterate]
    _ = crcRegister c d := by
        rw [crcRegister, ← hrest, ← crcShift_iterate_xor 8 _ hclear, low_byte_xor_rest]

/-! ### The byte array and the checksum -/

/-- The contents of memory and the byte order are all that a byte array depends on. -/
theorem byteArray_congr {s t : State} (hc : t.cfg = s.cfg) (hm : t.mem = s.mem) (base : Word) (n : Nat) :
    byteArray t base n = byteArray s base n := by
  simp only [byteArray, elemValue, hc, hm]

theorem ofNat_toNat_add (k : Word) (i : Nat) : BitVec.ofNat 32 (k.toNat + i) = k + BitVec.ofNat 32 i := by
  rw [BitVec.ofNat_add, BitVec.ofNat_toNat, BitVec.setWidth_eq]

theorem elemAddr_one_add (base i j : Word) : elemAddr (base + i) .one j = elemAddr base .one (i + j) := by
  simp [elemAddr, AccessSize.bytes, BitVec.add_assoc]

/-- The bytes of an array in two parts. -/
theorem byteArray_add (s : State) (base k : Word) (n : Nat) :
    byteArray s base (k.toNat + n) = byteArray s base k.toNat ++ byteArray s (base + k) n := by
  have hmove (i : Nat) : elemValue s base .one (k.toNat + i) = elemValue s (base + k) .one i := by
    rw [elemValue, elemValue, elemAddr_one_add, ofNat_toNat_add]
  simp [byteArray, List.range_add, hmove]

theorem byteArray_succ (s : State) (base : Word) (n : Nat) :
    byteArray s base (n + 1) = byteArray s base n ++ [(elemValue s base .one n).setWidth 8] := by
  simp [byteArray, List.range_succ]

@[simp] theorem crcOf_nil (base : Word) : crcOf base [] = base := BitVec.not_not

/-- The checksum chains through its base (R132). -/
theorem crcOf_append (base : Word) (xs ys : List Byte) : crcOf base (xs ++ ys) = crcOf (crcOf base xs) ys := by
  simp [crcOf]

/-! ### The engine steps -/

/-- The CRC register after the first `k` bytes of a command's data. -/
def crcRegisterAfter (s : State) (k : Nat) : Word := (byteArray s (crcData s) k).foldl crcRegister (~~~(crcBase s))

theorem crcRegisterAfter_succ (s : State) (k : Nat) :
    crcRegisterAfter s (k + 1) =
      crcRegister (crcRegisterAfter s k) ((elemValue s (crcData s) .one k).setWidth 8) := by
  rw [crcRegisterAfter, byteArray_succ, List.foldl_append]
  rfl

/-- A CRC32 in flight that has read `k` bytes; byte `k` is next. -/
def crcInFlight (s : State) (k : Nat) (cur : Word) : State :=
  State.accept .crc32 (.crc32 (crcRegisterAfter s k) cur (BitVec.ofNat 32 k) 0) s

theorem crcInFlight_succ (s : State) (k : Nat) (cur : Word) :
    crcInFlight s (k + 1) cur =
      State.accept .crc32 (.crc32 (crcRegister (crcRegisterAfter s k) ((elemValue s (crcData s) .one k).setWidth 8)) cur
        (BitVec.ofNat 32 k + 1#32) 0) s := by
  rw [crcInFlight, crcRegisterAfter_succ, BitVec.ofNat_add]

/-- An undisturbed CRC32 runs from the state in which nothing is read yet. -/
theorem exec_crc32_ready {s : State} (hr : Ready .crc32 s) :
    exec .crc32 s = .next (runTurns crc32Turn ((crcLength s).toNat + 1) (crcInFlight s 0 0)) :=
  issue_ready hr

theorem ofNat_lt_iff {k : Nat} {w : Word} (hk : k ≤ w.toNat) : BitVec.ofNat 32 k < w ↔ k < w.toNat := by
  rw [BitVec.lt_def, BitVec.toNat_ofNat, Nat.mod_eq_of_lt (hk.trans_lt w.isLt)]

/-- An admitted read takes one byte into the register. -/
theorem crc32Turn_read {s : State} {crc cur i d : Word} {bit : BitVec 3} (hw : s.work = .crc32 crc cur i bit)
    (hi : i < crcLength s) (hd : memRead s (elemAddr (crcData s) .one i) .one = some d) :
    crc32Turn s =
      { s with work := .crc32 (crcRegister crc (d.setWidth 8)) (crcCur crc (d.setWidth 8)) (i + 1) bit } := by
  simp only [crc32Turn, hw, hi, hd, if_true, crcByte_eq_crcRegister]

/-- The read of byte `k`. -/
theorem crc32Turn_crcInFlight {s : State} {k : Nat} (cur : Word) (hk : k < (crcLength s).toNat)
    (ha : admits s.cfg (elemAddr (crcData s) .one (BitVec.ofNat 32 k)) .one .read = true) :
    crc32Turn (crcInFlight s k cur) =
      crcInFlight s (k + 1) (crcCur (crcRegisterAfter s k) ((elemValue s (crcData s) .one k).setWidth 8)) := by
  rw [crc32Turn_read (s := crcInFlight s k cur) rfl ((ofNat_lt_iff hk.le).2 hk) (if_pos ha), crcInFlight_succ]
  rfl

/-- The completion step, once all bytes are read. -/
theorem crc32Turn_complete (s : State) (cur : Word) :
    crc32Turn (crcInFlight s (crcLength s).toNat cur) =
      State.complete (crcOf (crcBase s) (byteArray s (crcData s) (crcLength s).toNat))
        (crcInFlight s (crcLength s).toNat cur) :=
  if_neg fun h => lt_irrefl _ ((ofNat_lt_iff le_rfl).1 h)

/-- The engine steps that read the first `k` bytes. -/
theorem runTurns_crcInFlight {s : State} {k : Nat} (hk : k ≤ (crcLength s).toNat)
    (ha : Admitted s (crcData s) .one .read k) :
    ∃ cur, runTurns crc32Turn k (crcInFlight s 0 0) = crcInFlight s k cur := by
  induction k with
  | zero => exact ⟨0, rfl⟩
  | succ k ih =>
    obtain ⟨cur, hrun⟩ := ih (by omega) fun i hi => ha i (by omega)
    rw [runTurns_add, hrun, runTurns_busy 0 rfl, crc32Turn_crcInFlight cur hk (ha k (by omega))]
    exact ⟨_, rfl⟩

/-! ### The command -/

/-- Once a command has completed, the next one is ready. -/
theorem ready_of_completed {i : Instr} {s t : State} (hc : Completed s t) (hr : Ready i s) : Ready i t := by
  obtain ⟨-, hpresent, hquiet⟩ := hr
  obtain ⟨hstatus, hcfg, -, -, -, hschedule, -⟩ := hc
  exact ⟨by rw [hstatus], by rwa [hcfg], by rwa [quiet, hschedule]⟩

/-- Settles O42: the engine steps that read all the bytes, then the completion step. -/
theorem crc32ReturnsChecksum : Obligations.Crc32ReturnsChecksum := by
  intro s hr ha
  obtain ⟨cur, hrun⟩ := runTurns_crcInFlight le_rfl ha
  rw [exec_crc32_ready hr, runTurns_add, hrun, runTurns_busy 0 rfl, crc32Turn_complete]
  exact ⟨_, rfl, ⟨rfl, rfl, rfl, rfl, rfl, rfl, rfl⟩, rfl, rfl, rfl⟩

/-- The check value of R134, of the whole-register form. -/
theorem crcOf_digits : crcOf 0 [0x31, 0x32, 0x33, 0x34, 0x35, 0x36, 0x37, 0x38, 0x39] = 0xCBF43926#32 := by
  simp [crcOf, crcRegister, crcShift]

/-- Settles O43: the checksum of the nine digits. -/
theorem crc32CheckValue : Obligations.Crc32CheckValue := by
  intro s hr hbase hlen ha hbytes
  have hn : (crcLength s).toNat = 9 := by rw [hlen]; rfl
  have h := crc32ReturnsChecksum s hr (by rwa [hn])
  rwa [hn, hbytes, hbase, crcOf_digits] at h

/-- Settles O44: with no bytes every read is admitted, and the checksum is the base. -/
theorem crc32OfNothingIsBase : Obligations.Crc32OfNothingIsBase := by
  intro s hr hlen
  have hn : (crcLength s).toNat = 0 := by rw [hlen]; rfl
  have h := crc32ReturnsChecksum s hr (by rw [hn]; exact nofun)
  rwa [hn, show byteArray s (crcData s) 0 = [] from rfl, crcOf_nil] at h

/-- Settles O45: the second command reads the rest of the bytes, and the checksum chains. -/
theorem crc32Chains : Obligations.Crc32Chains := by
  intro s t k n hr hkn ha ht
  have hsum : k.toNat + (n - k).toNat = n.toNat := by
    rw [BitVec.toNat_sub_of_le hkn, Nat.add_sub_cancel' hkn]
  obtain ⟨t, ht', htc, htmem, htres, -⟩ :=
    crc32ReturnsChecksum { s with args := { s.args with arg2 := k } } hr fun i hi => ha i (hi.trans_le hkn)
  cases ht'.symm.trans ht
  obtain ⟨v, hv, ⟨hvs, -⟩, -, hvres, hvopen⟩ :=
    crc32ReturnsChecksum { s with args := { s.args with arg2 := n } } hr ha
  have ⟨hts, htcfg, _⟩ := htc
  have hready : Ready .crc32 t := ready_of_completed htc hr
  have hrest : Admitted t (crcData s + k) .one .read (n - k).toNat := fun i hi => by
    rw [elemAddr_one_add, htcfg, ← ofNat_toNat_add]
    exact ha _ (by omega)
  obtain ⟨u, hu, ⟨hus, -⟩, -, hures, huopen⟩ :=
    crc32ReturnsChecksum { t with args := { t.args with arg0 := t.res, arg1 := crcData s + k, arg2 := n - k } }
      hready hrest
  refine ⟨u, v, hu, hv, ?_, huopen, hvopen, ?_⟩
  · calc u.res
        = crcOf t.res (byteArray t (crcData s + k) (n - k).toNat) := hures
      _ = crcOf (crcBase s) (byteArray s (crcData s) k.toNat ++ byteArray s (crcData s + k) (n - k).toNat) := by
        rw [htres, byteArray_congr htcfg htmem, crcOf_append]
        rfl
      _ = v.res := by
        rw [← byteArray_add, hsum, hvres]
        rfl
  · rw [hus, hvs, hts]

end Sys2Proof.Machine
end

section
/-! FLS (43_fls.md R140 to R142): the position R141 finds is the length of the operand in binary, `Nat.size`; so the
result of the command, and the realisation by shifts of R142. -/

namespace Sys2Proof.Machine

open Sys2Proof.Safety

/-! ### The position as a length -/

/-- The top bit of a number of at most `p + 1` bits. -/
theorem getLsbD_iff_two_pow_le {x : Word} {p : Nat} (h : x.toNat < 2 ^ (p + 1)) :
    x.getLsbD p = true ↔ 2 ^ p ≤ x.toNat :=
  ⟨Nat.ge_two_pow_of_testBit, fun hle => Nat.testBit_of_two_pow_le_and_two_pow_add_one_gt hle h⟩

/-- The scan from a position above every set bit finds the length in binary. -/
theorem lastSetBelow_eq_size {n : Nat} {x : Word} (h : x.toNat < 2 ^ n) : lastSetBelow n x = x.toNat.size := by
  induction n with
  | zero => rw [Nat.lt_one_iff.1 h, lastSetBelow, Nat.size_zero]
  | succ p ih =>
    simp only [lastSetBelow, getLsbD_iff_two_pow_le h]
    split
    · exact le_antisymm (Nat.lt_size.2 ‹_›) (Nat.size_le.2 h)
    · exact ih (Nat.lt_of_not_le ‹_›)

theorem flsOf_eq_size (x : Word) : flsOf x = x.toNat.size := lastSetBelow_eq_size x.isLt

theorem flsOf_le (x : Word) : flsOf x ≤ 32 := by
  rw [flsOf_eq_size]
  exact Nat.size_le.2 x.isLt

theorem flsOf_le_iff (x : Word) (n : Nat) : flsOf x ≤ n ↔ x.toNat < 2 ^ n := by
  rw [flsOf_eq_size, Nat.size_le]

theorem flsOf_pos_iff {x : Word} : 0 < flsOf x ↔ x ≠ 0 := by
  rw [flsOf_eq_size, Nat.size_pos, Nat.pos_iff_ne_zero, BitVec.toNat_ne]
  rfl

/-- The function of R141, in both of its forms. -/
theorem flsOf_spec {x : Word} (h : x ≠ 0) : ∃ p, p ≤ 31 ∧ flsOf x = p + 1 ∧ x.getLsbD p = true ∧
    (∀ j, p < j → x.getLsbD j = false) ∧ 2 ^ p ≤ x.toNat ∧ x.toNat < 2 ^ (p + 1) := by
  obtain ⟨p, hp⟩ := Nat.exists_eq_add_one.2 (flsOf_pos_iff.2 h)
  have hle := flsOf_le x
  have hlt : x.toNat < 2 ^ (p + 1) := (flsOf_le_iff x _).1 hp.le
  have hge : 2 ^ p ≤ x.toNat := by
    rw [← not_lt, ← flsOf_le_iff]
    omega
  refine ⟨p, by omega, hp, (getLsbD_iff_two_pow_le hlt).2 hge, fun j hj => ?_, hge, hlt⟩
  exact Nat.testBit_lt_two_pow (hlt.trans_le (Nat.pow_le_pow_right Nat.two_pos hj))

/-! ### The command -/

/-- An undisturbed FLS takes one engine step, its completion (40_command_lifecycle.md R94). -/
theorem exec_fls_ready {s : State} (hr : Ready .fls s) :
    exec .fls s = .next (State.complete (BitVec.ofNat 32 (flsOf (flsX s))) (State.accept .fls (.fls (flsX s) 32) s)) :=
  issue_ready hr

/-- Settles O46: the command completes with the position of R141, which fits RES. -/
theorem flsReturnsTopBitPosition : Obligations.FlsReturnsTopBitPosition := by
  intro s hr
  have hle := flsOf_le (flsX s)
  have hres : (BitVec.ofNat 32 (flsOf (flsX s))).toNat = flsOf (flsX s) := by
    rw [BitVec.toNat_ofNat, Nat.mod_eq_of_lt (by omega)]
  refine ⟨_, exec_fls_ready hr, ⟨rfl, rfl, rfl, rfl, rfl, rfl, rfl⟩, rfl, rfl, ?_⟩
  rw [State.complete_res, hres]
  refine ⟨hle, fun h => ?_, fun h => ?_, fun h => ?_, flsOf_spec⟩
  all_goals
    rw [h]
    decide

/-! ### The realisation of R142 -/

/-- The test of the bits above the lowest `n`. -/
theorem and_highBits_eq_zero_iff (y : Word) (n : Nat) : y &&& BitVec.allOnes 32 <<< n = 0 ↔ flsOf y ≤ n := by
  have hback : (y >>> n <<< n).toNat = y.toNat / 2 ^ n * 2 ^ n := by
    rw [BitVec.toNat_shiftLeft, BitVec.toNat_ushiftRight, Nat.shiftRight_eq_div_pow, Nat.shiftLeft_eq]
    exact Nat.mod_eq_of_lt ((Nat.div_mul_le_self _ _).trans_lt y.isLt)
  rw [flsOf_le_iff, ← BitVec.shiftLeft_ushiftRight, ← BitVec.toNat_inj, hback]
  simp

/-- A shift that loses no bit moves the position up. -/
theorem flsOf_shiftLeft {y : Word} {k : Nat} (h0 : y ≠ 0) (h : flsOf y + k ≤ 32) : flsOf (y <<< k) = flsOf y + k := by
  have hsize : (y.toNat <<< k).size = y.toNat.size + k := Nat.size_shiftLeft (BitVec.toNat_ne.1 h0) k
  rw [flsOf_eq_size, ← hsize, Nat.size_le] at h
  rw [flsOf_eq_size, flsOf_eq_size, BitVec.toNat_shiftLeft, Nat.mod_eq_of_lt h, hsize]

/-- The value and the counter of R142 once only the highest `k` bits are left to look at: one of them is set, and the
counter has gone down from 32 by as much as the shifts have moved the position up. -/
structure HalvedTo (k : Nat) (x : Word) (v : Word × Nat) : Prop where
  bit_set : 32 - k < flsOf v.1
  counter : flsOf v.1 + v.2 = flsOf x + 32

theorem halvedTo_all {x : Word} (h : x ≠ 0) : HalvedTo 32 x (x, 32) := ⟨flsOf_pos_iff.2 h, rfl⟩

/-- One test and shift of R142: the upper half of the bits left to look at is tested. -/
theorem HalvedTo.half {k : Nat} {x mask : Word} {v : Word × Nat} (h : HalvedTo (k + k) x v) (hk : k + k ≤ 32)
    (hmask : mask = BitVec.allOnes 32 <<< (32 - k)) :
    HalvedTo k x (if v.1 &&& mask = 0 then (v.1 <<< k, v.2 - k) else v) := by
  obtain ⟨hset, hcounter⟩ := h
  have hx := flsOf_le x
  simp only [hmask, and_highBits_eq_zero_iff]
  split
  · have hshift := flsOf_shiftLeft (flsOf_pos_iff.1 (Nat.zero_lt_of_lt hset)) (k := k) (by omega)
    constructor <;> dsimp only <;> omega
  · exact ⟨by omega, hcounter⟩

/-- The last test of R142 only counts. -/
theorem HalvedTo.last {x : Word} {v : Word × Nat} (h : HalvedTo 2 x v) :
    (if v.1 &&& 0x80000000#32 = 0 then v.2 - 1 else v.2) = flsOf x := by
  have hmask : 0x80000000#32 = BitVec.allOnes 32 <<< 31 := rfl
  obtain ⟨hset, hcounter⟩ := h
  have hle := flsOf_le v.1
  simp only [hmask, and_highBits_eq_zero_iff]
  split <;> omega

/-- Settles O47: each of the first four tests halves the bits left to look at, 32 to 2; the last decides between two. -/
theorem flsHalvingIsFls : Obligations.FlsHalvingIsFls := by
  intro x
  unfold flsHalving
  split
  · rename_i h
    rw [h]
    decide
  · rename_i h
    have h16 := (halvedTo_all h).half (k := 16) (by decide) rfl
    have h8 := h16.half (k := 8) (by decide) rfl
    have h4 := h8.half (k := 4) (by decide) rfl
    have h2 := h4.half (k := 2) (by decide) rfl
    exact h2.last

end Sys2Proof.Machine
end

section
/-! NORM (44_norm.md R150 to R153): the bits of a value below its sign bit decide both how often the loop of R151
shifts and how far the value can be shifted left; so the result of the command. -/

namespace Sys2Proof.Machine

open Sys2Proof.Safety

/-! ### The bits below the sign bit -/

/-- How many bits below the sign bit a value needs (R153). -/
def bitsBelowSign (v : Word) : Nat := flsOf (v ^^^ v.sshiftRight 31)

theorem sshiftRight_31 (v : Word) : v.sshiftRight 31 = if v.toInt < 0 then BitVec.allOnes 32 else 0#32 := by
  have hlow := v.le_toInt
  have hhigh := v.toInt_lt
  refine BitVec.eq_of_toInt_eq ?_
  rw [BitVec.toInt_sshiftRight, Int.shiftRight_eq_div_pow]
  split
  · have hneg : (BitVec.allOnes 32).toInt = -1 := rfl
    omega
  · have hzero : (0#32).toInt = 0 := rfl
    omega

/-- What `bitsBelowSign` counts: `n` bits below the sign bit hold the values from `-2^n` up to `2^n - 1`. -/
theorem bitsBelowSign_le_iff (v : Word) (n : Nat) :
    bitsBelowSign v ≤ n ↔ -2 ^ n ≤ v.toInt ∧ v.toInt < 2 ^ n := by
  have hcases := BitVec.toInt_eq_toNat_cond v
  have hlt := v.isLt
  have hpos : 0 < 2 ^ n := Nat.two_pow_pos n
  have hcast : ((2 ^ n : Nat) : Int) = 2 ^ n := by norm_cast
  rw [bitsBelowSign, flsOf_le_iff, sshiftRight_31, ← hcast]
  split
  · rw [BitVec.xor_allOnes, BitVec.toNat_not]
    omega
  · rw [BitVec.xor_zero]
    omega

theorem bitsBelowSign_le (v : Word) : bitsBelowSign v ≤ 31 :=
  (bitsBelowSign_le_iff v 31).2 ⟨v.le_toInt, v.toInt_lt⟩

/-- The values at which the loop of R151 ends. -/
theorem bitsBelowSign_eq_zero_iff (v : Word) : bitsBelowSign v = 0 ↔ v = 0 ∨ v = 0xFFFFFFFF#32 := by
  have hzero : (0 : Word).toInt = 0 := rfl
  have hneg : (0xFFFFFFFF#32).toInt = -1 := rfl
  rw [← Nat.le_zero, bitsBelowSign_le_iff, ← BitVec.toInt_inj, ← BitVec.toInt_inj, hzero, hneg]
  omega

/-- The arithmetic shift of R152 takes one bit away. -/
theorem bitsBelowSign_sshiftRight_one (v : Word) : bitsBelowSign (v.sshiftRight 1) = bitsBelowSign v - 1 := by
  refine eq_of_forall_ge_iff fun n => ?_
  rw [Nat.sub_le_iff_le_add, bitsBelowSign_le_iff, bitsBelowSign_le_iff, BitVec.toInt_sshiftRight,
    Int.shiftRight_eq_div_pow, pow_succ]
  omega

/-! ### The loop -/

/-- The loop of R151 takes one shift per bit below the sign bit. -/
theorem normCount_eq {fuel : Nat} {v : Word} (c : BitVec 5) (h : bitsBelowSign v ≤ fuel) :
    normCount fuel v c = c + BitVec.ofNat 5 (bitsBelowSign v) := by
  induction fuel generalizing v c with
  | zero => rw [Nat.le_zero.1 h, normCount, BitVec.add_zero]
  | succ fuel ih =>
    by_cases h0 : bitsBelowSign v = 0
    · rw [normCount, if_pos ((bitsBelowSign_eq_zero_iff v).1 h0), h0, BitVec.add_zero]
    · obtain ⟨k, hk⟩ := Nat.exists_eq_add_one_of_ne_zero h0
      have hshift : bitsBelowSign (v.sshiftRight 1) = k := by
        rw [bitsBelowSign_sshiftRight_one, hk, Nat.add_sub_cancel]
      rw [normCount, if_neg (mt (bitsBelowSign_eq_zero_iff v).2 h0), ih (c + 1) (by omega), hshift, hk,
        Nat.add_comm, BitVec.ofNat_add, ← BitVec.add_assoc]
      rfl

/-- The closed form of R153. -/
theorem normOf_toNat (v : Word) : (normOf v 0).toNat = 31 - bitsBelowSign v := by
  have hle := bitsBelowSign_le v
  have hcount : (normCount 32 v 0).toNat = bitsBelowSign v := by
    rw [normCount_eq 0 (by omega), zero_add, BitVec.toNat_ofNat, Nat.mod_eq_of_lt (by omega)]
  rw [normOf]
  bv_omega

/-! ### The range of the shifted value -/

/-- A value other than 0 can be shifted left as far as its redundant sign bits go. -/
theorem mul_two_pow_fits_iff {v : Word} (hv : v ≠ 0) (n : Nat) :
    (-(2 ^ 31) ≤ v.toInt * 2 ^ n ∧ v.toInt * 2 ^ n < 2 ^ 31) ↔ n + bitsBelowSign v ≤ 31 := by
  have hv0 : v.toInt ≠ 0 := fun h => hv (BitVec.eq_of_toInt_eq h)
  by_cases hn : n ≤ 31
  · have hsplit : (2 : Int) ^ 31 = 2 ^ (31 - n) * 2 ^ n := by rw [← pow_add, Nat.sub_add_cancel hn]
    have hpos : (0 : Int) < 2 ^ n := by positivity
    rw [hsplit, ← neg_mul, mul_le_mul_iff_left₀ hpos, mul_lt_mul_iff_left₀ hpos, ← bitsBelowSign_le_iff]
    omega
  · have hbig : (2 : Int) ^ 32 ≤ 2 ^ n := pow_le_pow_right₀ (by decide) (by omega)
    refine iff_of_false (fun ⟨hlow, hhigh⟩ => ?_) (by omega)
    rcases hv0.lt_or_gt with h | h <;> nlinarith

/-! ### The command -/

/-- An undisturbed NORM takes one engine step, its completion (40_command_lifecycle.md R94). -/
theorem exec_norm_ready {s : State} (hr : Ready .norm s) :
    exec .norm s = .next (State.complete (normOf (normVal s) 0) (State.accept .norm (.norm (normVal s) 0) s)) :=
  issue_ready hr

/-- Settles O48: the command completes with the shifts left over from 31, of which none more fits the range. -/
theorem normReturnsShiftCount : Obligations.NormReturnsShiftCount := by
  intro s hr
  have hres := normOf_toNat (normVal s)
  have hle := bitsBelowSign_le (normVal s)
  refine ⟨_, exec_norm_ready hr, ⟨rfl, rfl, rfl, rfl, rfl, rfl, rfl⟩, rfl, rfl, ?_⟩
  rw [State.complete_res]
  refine ⟨hres, fun h => ?_, fun h => ?_⟩
  · rw [h]
    decide
  · rw [mul_two_pow_fits_iff h, mul_two_pow_fits_iff h, hres]
    omega

end Sys2Proof.Machine
end

section
/-! FMIN16 and FMAXA32 (45_vector.md R165 to R169): the two commands are one scan of an array with an accumulator. What
that scan does is said once, for both; so their results, and what is left of them on an array of no elements. -/

namespace Sys2Proof.Machine

open Sys2Proof.Safety

/-! ### Runs and lengths -/

/-- A run through states that the steps lead along. -/
theorem runTurns_path {turn : State → State} {f : Nat → State} {k : Nat} (hb : ∀ j < k, (f j).status.busy = true)
    (ht : ∀ j < k, turn (f j) = f (j + 1)) : runTurns turn k (f 0) = f k := by
  induction k with
  | zero => rfl
  | succ k ih =>
    rw [runTurns_add, ih (fun j hj => hb j (by omega)) fun j hj => ht j (by omega),
      runTurns_busy 0 (hb k k.lt_succ_self)]
    exact ht k k.lt_succ_self

theorem lengthOf_lt (len : Word) : lengthOf len < 2 ^ 31 := by
  have := len.toInt_lt
  rw [lengthOf]
  omega

theorem toInt_ofNat_of_lt {k : Nat} (hk : k < 2 ^ 31) : (BitVec.ofNat 32 k).toInt = k := by
  rw [BitVec.toInt_ofNat']
  exact Int.bmod_eq_of_le (by omega) (by omega)

/-- An index is in range of a length operand (30_encoding.md R74). -/
theorem ofNat_slt_iff {k : Nat} (hk : k < 2 ^ 31) (len : Word) : (BitVec.ofNat 32 k).slt len ↔ k < lengthOf len := by
  rw [BitVec.slt_iff_toInt_lt, toInt_ofNat_of_lt hk, lengthOf]
  omega

theorem ofNat_eq_zero_iff {k : Nat} (hk : k < 2 ^ 31) : BitVec.ofNat 32 k = 0 ↔ k = 0 := by
  rw [← BitVec.toNat_inj, BitVec.toNat_ofNat, Nat.mod_eq_of_lt (by omega)]
  rfl

theorem one_le_lengthOf {len : Word} (h : 1 ≤ len.toInt) : 1 ≤ lengthOf len := by
  rw [lengthOf]
  omega

theorem lengthOf_eq_zero {len : Word} (h : len.toInt ≤ 0) : lengthOf len = 0 := Int.toNat_of_nonpos h

theorem elemAddr_zero (base : Word) (size : AccessSize) : elemAddr base size 0#32 = base := by
  simp [elemAddr]

/-! ### The loop of a scan -/

/-- What one of the two scans does with the elements it reads, for an accumulator of type `β`. -/
structure ScanLoop (β : Type) where
  size : AccessSize
  /-- The working registers: the index of the next element and the accumulator. -/
  work : Word → β → Work
  /-- The accumulator after an element at an index. -/
  acc : Word → β → Word → β
  result : β → Word

namespace ScanLoop

variable {β : Type} (l : ScanLoop β) (p : Word) (a : β) (s : State)

/-- One engine step at element `p`: the read of the element, or the completion. -/
def loopTurn : State :=
  if p = 0 ∨ p.slt (scanLength s) then
    match memRead s (elemAddr (scanVec s) l.size p) l.size with
    | none => State.refuseAccess s
    | some e => { s with work := l.work (p + 1) (l.acc p a e) }
  else if (scanLength s).sle 0 then State.completeAny s
  else State.complete (l.result a) s

variable {l p a s}

theorem loopTurn_read {e : Word} (hp : p = 0 ∨ p.slt (scanLength s))
    (hr : memRead s (elemAddr (scanVec s) l.size p) l.size = some e) :
    l.loopTurn p a s = { s with work := l.work (p + 1) (l.acc p a e) } := by
  simp only [loopTurn, if_pos hp, hr]

theorem loopTurn_refuse (hp : p = 0 ∨ p.slt (scanLength s))
    (hr : memRead s (elemAddr (scanVec s) l.size p) l.size = none) : l.loopTurn p a s = State.refuseAccess s := by
  simp only [loopTurn, if_pos hp, hr]

theorem loopTurn_complete (hp : ¬(p = 0 ∨ p.slt (scanLength s))) (hlen : 1 ≤ (scanLength s).toInt) :
    l.loopTurn p a s = State.complete (l.result a) s := by
  have hsome : ¬(scanLength s).sle 0 := fun h => absurd (hlen.trans (BitVec.sle_iff_toInt_le.1 h)) (by decide)
  rw [loopTurn, if_neg hp, if_neg hsome]

theorem loopTurn_completeAny (hp : ¬(p = 0 ∨ p.slt (scanLength s))) (hlen : (scanLength s).toInt ≤ 0) :
    l.loopTurn p a s = State.completeAny s := by
  rw [loopTurn, if_neg hp, if_pos (BitVec.sle_iff_toInt_le.2 hlen)]

end ScanLoop

/-! ### The scan -/

/-- A command that runs the loop of a scan, held to the model's own definitions. -/
structure Scan (β : Type) extends ScanLoop β where
  instr : Instr
  turn : State → State
  /-- The accumulator before the first element. -/
  start : β
  turn_work : ∀ {s : State} {p : Word} {a : β}, s.work = work p a → turn s = toScanLoop.loopTurn p a s
  turn_refused : ∀ {s : State}, s.work = .refused → turn s = State.raise .busFault s
  exec_eq : ∀ s : State, exec instr s = issue instr (work 0 start) (lengthOf (scanLength s) + 2) turn s

/-- FMIN16 (R165). -/
def minScan : Scan Half where
  size := .two
  work := .fmin16
  acc i m e := minStep i m (e.setWidth 16)
  result m := m.signExtend 32
  instr := .fmin16
  turn := fmin16Turn
  start := 0
  turn_work h := by simp only [fmin16Turn, h]; rfl
  turn_refused h := by simp only [fmin16Turn, h]
  exec_eq _ := rfl

/-- FMAXA32 (R167). -/
def maxScan : Scan (BitVec 64) where
  size := .four
  work := .fmaxa32
  acc := maxStep
  result := saturate
  instr := .fmaxa32
  turn := fmaxa32Turn
  start := 0
  turn_work h := by simp only [fmaxa32Turn, h]; rfl
  turn_refused h := by simp only [fmaxa32Turn, h]
  exec_eq _ := rfl

namespace Scan

variable {β : Type} (c : Scan β) (s : State)

/-- The accumulator after the first `k` elements. -/
def after (k : Nat) : β :=
  match k with
  | 0 => c.start
  | k + 1 => c.acc (BitVec.ofNat 32 k) (after k) (elemValue s (scanVec s) c.size k)

/-- The scan in flight, with `k` elements read. -/
def inFlight (k : Nat) : State := State.accept c.instr (c.work (BitVec.ofNat 32 k) (c.after s k)) s

/-- How many elements the scan reads: those in range, and element 0 (R165, R167). -/
def reads : Nat := max 1 (lengthOf (scanLength s))

variable {c s} {k : Nat}

theorem reads_lt : reads s < 2 ^ 31 := max_lt (by decide) (lengthOf_lt _)

/-- The test before a read. -/
theorem inRange_iff (hk : k ≤ reads s) :
    (BitVec.ofNat 32 k = 0 ∨ (BitVec.ofNat 32 k).slt (scanLength s)) ↔ k < reads s := by
  have hlt : k < 2 ^ 31 := hk.trans_lt reads_lt
  rw [ofNat_eq_zero_iff hlt, ofNat_slt_iff hlt, reads]
  omega

theorem not_inRange_reads :
    ¬(BitVec.ofNat 32 (reads s) = 0 ∨ (BitVec.ofNat 32 (reads s)).slt (scanLength s)) :=
  fun h => lt_irrefl _ ((inRange_iff le_rfl).1 h)

theorem turn_inFlight : c.turn (c.inFlight s k) = c.loopTurn (BitVec.ofNat 32 k) (c.after s k) (c.inFlight s k) :=
  c.turn_work rfl

/-- An admitted read takes an element into the accumulator. -/
theorem turn_read (hk : k < reads s)
    (ha : admits s.cfg (elemAddr (scanVec s) c.size (BitVec.ofNat 32 k)) c.size .read = true) :
    c.turn (c.inFlight s k) = c.inFlight s (k + 1) := by
  rw [turn_inFlight, ScanLoop.loopTurn_read (s := c.inFlight s k) ((inRange_iff hk.le).2 hk) (if_pos ha), inFlight,
    inFlight, BitVec.ofNat_add]
  rfl

/-- A read that is not admitted is refused. -/
theorem turn_refuse (hk : k < reads s)
    (hno : admits s.cfg (elemAddr (scanVec s) c.size (BitVec.ofNat 32 k)) c.size .read = false) :
    c.turn (c.inFlight s k) = State.refuseAccess (c.inFlight s k) :=
  turn_inFlight.trans
    (ScanLoop.loopTurn_refuse (s := c.inFlight s k) ((inRange_iff hk.le).2 hk) (if_neg (Bool.eq_false_iff.1 hno)))

/-- The engine steps that read the first `k` elements. -/
theorem runTurns_reads (hk : k ≤ reads s) (ha : Admitted s (scanVec s) c.size .read k) :
    runTurns c.turn k (c.inFlight s 0) = c.inFlight s k :=
  runTurns_path (f := c.inFlight s) (fun _ _ => rfl) fun j hj => turn_read (hj.trans_le hk) (ha j hj)

/-- An undisturbed scan comes to where the first `k` elements are read, and has the steps left to end from there. -/
theorem exec_reads (hr : Ready c.instr s) (hk : k ≤ reads s) (ha : Admitted s (scanVec s) c.size .read k) :
    exec c.instr s = .next (runTurns c.turn (lengthOf (scanLength s) + 2 - k) (c.inFlight s k)) := by
  have hfuel : k + (lengthOf (scanLength s) + 2 - k) = lengthOf (scanLength s) + 2 := by
    rw [reads] at hk
    omega
  rw [c.exec_eq, issue_ready hr, ← runTurns_reads hk ha, ← runTurns_add, hfuel]
  rfl

/-- One more step ends the scan, where it leaves the engine idle. -/
theorem exec_last {t : State} (hr : Ready c.instr s) (ha : Admitted s (scanVec s) c.size .read (reads s))
    (ht : c.turn (c.inFlight s (reads s)) = t) (hb : t.status.busy = false) : exec c.instr s = .next t := by
  obtain ⟨rest, hrest⟩ : ∃ rest, lengthOf (scanLength s) + 2 - reads s = rest + 1 :=
    Nat.exists_eq_add_one.2 (by rw [reads]; omega)
  rw [exec_reads hr le_rfl ha, hrest, runTurns_busy rest rfl, ht, runTurns_idle rest hb]

/-- A scan of a non-empty array completes with its accumulator's result. -/
theorem exec_complete (hr : Ready c.instr s) (hlen : 1 ≤ (scanLength s).toInt)
    (ha : Admitted s (scanVec s) c.size .read (lengthOf (scanLength s))) :
    ∃ k, exec c.instr s = .next (State.complete (c.result (c.after s (lengthOf (scanLength s)))) (c.inFlight s k)) := by
  have hn : reads s = lengthOf (scanLength s) := max_eq_right (one_le_lengthOf hlen)
  rw [← hn] at ha ⊢
  have hturn := turn_inFlight.trans (ScanLoop.loopTurn_complete (s := c.inFlight s (reads s)) not_inRange_reads hlen)
  exact ⟨_, exec_last hr ha hturn rfl⟩

/-- A scan of no elements completes after the read of element 0, and its result is free. -/
theorem exec_completeAny (hr : Ready c.instr s) (hlen : (scanLength s).toInt ≤ 0)
    (ha : admits s.cfg (scanVec s) c.size .read = true) :
    ∃ k, exec c.instr s = .next (State.completeAny (c.inFlight s k)) := by
  have hn : reads s = 1 := by rw [reads, lengthOf_eq_zero hlen]; rfl
  have hseed : Admitted s (scanVec s) c.size .read (reads s) := fun i hi => by
    rw [show i = 0 by omega, elemAddr_zero, ha]
  have hturn := turn_inFlight.trans (ScanLoop.loopTurn_completeAny (s := c.inFlight s (reads s)) not_inRange_reads hlen)
  exact ⟨_, exec_last hr hseed hturn rfl⟩

/-- A scan ends with BUS_FAULT at the first element whose read is refused (60_exceptions.md R194). -/
theorem exec_busFault (hr : Ready c.instr s) (hk : k < reads s) (ha : Admitted s (scanVec s) c.size .read k)
    (hno : admits s.cfg (elemAddr (scanVec s) c.size (BitVec.ofNat 32 k)) c.size .read = false) :
    exec c.instr s = .next (State.raise .busFault (State.refuseAccess (c.inFlight s k))) := by
  obtain ⟨rest, hrest⟩ : ∃ rest, lengthOf (scanLength s) + 2 - k = rest + 2 :=
    Nat.exists_eq_add_of_le' (by rw [reads] at hk; omega)
  rw [exec_reads hr hk.le ha, hrest, runTurns_busy _ rfl, turn_refuse hk hno, runTurns_busy _ rfl, c.turn_refused rfl,
    runTurns_idle _ rfl]

/-- An accumulator that starts at element 0 and takes the lesser of itself and each element, by `key` and `val`, ends at
the least of the elements. -/
theorem after_isLeast {κ : Type} [LinearOrder κ] {key : β → κ} {val : Word → κ}
    (hacc : ∀ i a e, key (c.acc i a e) = if i = 0 then val e else min (key a) (val e)) (h1 : 1 ≤ k)
    (hk : k ≤ 2 ^ 31) :
    IsLeast ((fun j => val (elemValue s (scanVec s) c.size j)) '' Set.Iio k) (key (c.after s k)) := by
  induction k, h1 using Nat.le_induction with
  | base =>
    have hzero : Set.Iio 1 = {0} := by ext; simp
    rw [after, hacc, if_pos (by rfl), hzero, Set.image_singleton]
    exact isLeast_singleton
  | succ k h1 ih =>
    have hne : BitVec.ofNat 32 k ≠ 0 := fun h => by
      have := (ofNat_eq_zero_iff (by omega)).1 h
      omega
    have hmore : Set.Iio (k + 1) = insert k (Set.Iio k) := Order.Iio_succ_eq_insert k
    rw [after, hacc, if_neg hne, min_comm, hmore, Set.image_insert_eq]
    exact (ih (by omega)).insert _

/-- One that takes the greater ends at the greatest: the same in the dual order. -/
theorem after_isGreatest {κ : Type} [LinearOrder κ] {key : β → κ} {val : Word → κ}
    (hacc : ∀ i a e, key (c.acc i a e) = if i = 0 then val e else max (key a) (val e)) (h1 : 1 ≤ k)
    (hk : k ≤ 2 ^ 31) :
    IsGreatest ((fun j => val (elemValue s (scanVec s) c.size j)) '' Set.Iio k) (key (c.after s k)) :=
  after_isLeast (κ := κᵒᵈ) hacc h1 hk

/-- With no elements in range: BUS_FAULT where the read of element 0 is refused, else completion with a free result. -/
theorem exec_nothing (hr : Ready c.instr s) (hlen : (scanLength s).toInt ≤ 0) :
    (admits s.cfg (scanVec s) c.size .read = true →
      ∃ t d, exec c.instr s = .next t ∧ Completed s t ∧ t.mem = s.mem ∧ t.res = Config.any32 d ∧ t.resOpen = true) ∧
    (admits s.cfg (scanVec s) c.size .read = false →
      ∃ t, exec c.instr s = .next t ∧ BusFaulted s t ∧ t.mem = s.mem) := by
  constructor
  · intro ha
    obtain ⟨k, hexec⟩ := exec_completeAny hr hlen ha
    exact ⟨_, _, hexec, ⟨rfl, rfl, rfl, rfl, rfl, rfl, rfl⟩, rfl, rfl, rfl⟩
  · intro hno
    refine ⟨_, exec_busFault hr (k := 0) (lt_max_of_lt_left Nat.one_pos) nofun ?_,
      ⟨rfl, rfl, rfl, rfl, rfl, rfl, rfl, rfl⟩, rfl⟩
    rwa [elemAddr_zero]

end Scan

/-! ### The two accumulators -/

/-- FMIN16 compares signed (R165). -/
theorem minStep_toInt (i : Word) (m e : Half) :
    (minStep i m e).toInt = if i = 0 then e.toInt else min m.toInt e.toInt := by
  rw [minStep]
  split
  · rfl
  · split <;> rename_i h <;> rw [BitVec.slt_iff_toInt_lt] at h
    · exact (min_eq_right h.le).symm
    · exact (min_eq_left (not_lt.1 h)).symm

/-- The absolute value in 64 bits is exact (R167). -/
theorem absWide_toInt (e : Word) : (absWide e).toInt = e.toInt.natAbs := by
  have hlow : -2 ^ 31 ≤ e.toInt := e.le_toInt
  have hhigh : e.toInt < 2 ^ 31 := e.toInt_lt
  have hext : (e.signExtend 64).toInt = e.toInt := BitVec.toInt_signExtend_of_le (by decide)
  rw [absWide]
  split <;> rename_i h <;> rw [BitVec.slt_iff_toInt_lt, hext, BitVec.ofNat_eq_ofNat, BitVec.toInt_zero] at h
  · rw [BitVec.toInt_sub, hext, BitVec.ofNat_eq_ofNat, BitVec.toInt_zero, Int.bmod_eq_of_le (by omega) (by omega)]
    omega
  · omega

theorem maxStep_toInt (i : Word) (a : BitVec 64) (e : Word) :
    (maxStep i a e).toInt = if i = 0 then (e.toInt.natAbs : Int) else max a.toInt e.toInt.natAbs := by
  rw [maxStep, ← absWide_toInt]
  split
  · rfl
  · split <;> rename_i h <;> rw [BitVec.slt_iff_toInt_lt] at h
    · exact (max_eq_right h.le).symm
    · exact (max_eq_left (not_lt.1 h)).symm

/-- Saturation to `INT32_MAX` (R168). -/
theorem saturate_toNat {a : BitVec 64} {n : Nat} (h : a.toInt = n) : (saturate a).toNat = min n (2 ^ 31 - 1) := by
  have hnat : a.toNat = n := by
    rw [BitVec.toInt_eq_toNat_cond] at h
    have := a.isLt
    omega
  have hmax : (0x7FFFFFFF#64).toInt = 2 ^ 31 - 1 := rfl
  rw [saturate, BitVec.toNat_setWidth]
  split <;> rename_i hlt <;> rw [BitVec.slt_iff_toInt_lt, hmax, h] at hlt
  · rw [BitVec.toNat_ofNat]
    omega
  · omega

/-! ### The commands -/

/-- Settles O53: FMIN16's accumulator ends at the least element. -/
theorem fmin16ReturnsMinimum : Obligations.Fmin16ReturnsMinimum := by
  intro s hr hlen ha
  obtain ⟨⟨j, hj, hmin⟩, hle⟩ := minScan.after_isLeast (s := s) (key := BitVec.toInt)
    (val := fun e => (e.setWidth 16).toInt) (fun i m _ => minStep_toInt i m _) (one_le_lengthOf hlen) (lengthOf_lt _).le
  obtain ⟨k, hexec⟩ := minScan.exec_complete hr hlen ha
  refine ⟨_, hexec, ⟨rfl, rfl, rfl, rfl, rfl, rfl, rfl⟩, rfl, _, ⟨rfl, rfl⟩,
    List.mem_map.2 ⟨j, List.mem_range.2 hj, BitVec.eq_of_toInt_eq hmin⟩, fun e he => ?_⟩
  obtain ⟨i, hi, rfl⟩ := List.mem_map.1 he
  exact hle ⟨i, List.mem_range.1 hi, rfl⟩

/-- Settles O54: the scan of no elements. -/
theorem fmin16OfNothingIsFree : Obligations.Fmin16OfNothingIsFree := fun _ => minScan.exec_nothing

/-- Settles O55: FMAXA32's accumulator ends at the greatest magnitude, and saturation is monotone. -/
theorem fmaxa32ReturnsSaturatedMaximum : Obligations.Fmaxa32ReturnsSaturatedMaximum := by
  intro s hr hlen ha
  obtain ⟨⟨j, hj, hmax⟩, hle⟩ := maxScan.after_isGreatest (s := s) (key := BitVec.toInt)
    (val := fun e => (e.toInt.natAbs : Int)) maxStep_toInt (one_le_lengthOf hlen) (lengthOf_lt _).le
  have hres := saturate_toNat hmax.symm
  obtain ⟨k, hexec⟩ := maxScan.exec_complete hr hlen ha
  refine ⟨_, hexec, ⟨rfl, rfl, rfl, rfl, rfl, rfl, rfl⟩, rfl, rfl,
    ⟨_, List.mem_map.2 ⟨j, List.mem_range.2 hj, rfl⟩, hres⟩, fun e he => ?_⟩
  obtain ⟨i, hi, rfl⟩ := List.mem_map.1 he
  have hmag := (hle ⟨i, List.mem_range.1 hi, rfl⟩).trans_eq hmax.symm
  exact (min_le_min_right _ (Int.ofNat_le.1 hmag)).trans_eq hres.symm

/-- Settles O56: the scan of no elements. -/
theorem fmaxa32OfNothingIsFree : Obligations.Fmaxa32OfNothingIsFree := fun _ => maxScan.exec_nothing

end Sys2Proof.Machine
end

section
/-! FEQ16 (45_vector.md R161 to R164): its engine steps, a rule for each, and which bytes of memory they can change. -/

namespace Sys2Proof.Machine

open Sys2Proof.Safety

/-! ### The engine steps -/

section

variable {s : State} {i count : Word}

theorem feqScan_end (hi : ¬i.slt (feqLength s)) : feqScan i count s = State.complete count s := if_neg hi

theorem feqScan_refuse (hi : i.slt (feqLength s)) (hr : memRead s (elemAddr (feqVec s) .two i) .two = none) :
    feqScan i count s = State.refuseAccess s := by
  simp only [feqScan, if_pos hi, hr]

theorem feqScan_hit {e : Word} (hi : i.slt (feqLength s))
    (hr : memRead s (elemAddr (feqVec s) .two i) .two = some e) (he : e.setWidth 16 = feqN s) :
    feqScan i count s = { s with work := .feq16 i count .hit } := by
  simp only [feqScan, if_pos hi, hr, if_pos he]

theorem feqScan_miss {e : Word} (hi : i.slt (feqLength s))
    (hr : memRead s (elemAddr (feqVec s) .two i) .two = some e) (he : e.setWidth 16 ≠ feqN s) :
    feqScan i count s = { s with work := .feq16 (i + 1) count .scan } := by
  simp only [feqScan, if_pos hi, hr, if_neg he]

theorem feqHit_refuse (hw : memWrite s (elemAddr (feqOut s) (idxSize s.cfg) count) (idxSize s.cfg) i = none) :
    feqHit i count s = State.refuseAccess s := by
  simp only [feqHit, hw]

theorem feqHit_stop {m : Memory}
    (hw : memWrite s (elemAddr (feqOut s) (idxSize s.cfg) count) (idxSize s.cfg) i = some m)
    (hc : count + 1 = feqMax s) : feqHit i count s = { s with mem := m, work := .feq16 i (count + 1) .stop } := by
  simp only [feqHit, hw, if_pos hc]

theorem feqHit_go_on {m : Memory}
    (hw : memWrite s (elemAddr (feqOut s) (idxSize s.cfg) count) (idxSize s.cfg) i = some m)
    (hc : count + 1 ≠ feqMax s) : feqHit i count s = { s with mem := m, work := .feq16 (i + 1) (count + 1) .scan } := by
  simp only [feqHit, hw, if_neg hc]

end

/-! ### The frame -/

/-- The counter of FEQ16 is at most its index, and an index that is written is below the length: so an index write is
one of the first `vec_length`. -/
def FeqBound (s : State) : Prop :=
  match s.work with
  | .feq16 i count .scan => count.toNat ≤ i.toNat ∧ i.toNat ≤ lengthOf (feqLength s)
  | .feq16 i count .hit => count.toNat ≤ i.toNat ∧ i.toNat < lengthOf (feqLength s)
  | _ => True

/-- An address that is none of the first `vec_length` index elements'. -/
def OutsideIndices (s : State) (a : Word) : Prop :=
  ∀ c < lengthOf (feqLength s), ∀ j < AccessSize.bytes (idxSize s.cfg),
    a ≠ elemAddr (feqOut s) (idxSize s.cfg) (BitVec.ofNat 32 c) + BitVec.ofNat 32 j

theorem toNat_succ_of_lt {i : Word} {n : Nat} (h : i.toNat < n) (hn : n < 2 ^ 31) : (i + 1).toNat = i.toNat + 1 :=
  BitVec.toNat_add_of_lt (by change _ + 1 < _; omega)

theorem slt_iff_toNat_lt_lengthOf {i : Word} (hi : i.toNat < 2 ^ 31) (len : Word) :
    i.slt len ↔ i.toNat < lengthOf len := by
  simpa using ofNat_slt_iff hi len

theorem feqScan_bound {s : State} {i count : Word} (hc : count.toNat ≤ i.toNat)
    (hi : i.toNat ≤ lengthOf (feqLength s)) : FeqBound (feqScan i count s) := by
  unfold feqScan
  split
  · rename_i hslt
    have hlt := (slt_iff_toNat_lt_lengthOf (hi.trans_lt (lengthOf_lt _)) _).1 hslt
    have hi1 := toNat_succ_of_lt hlt (lengthOf_lt _)
    split
    · trivial
    · split
      · exact ⟨hc, hlt⟩
      · change count.toNat ≤ (i + 1).toNat ∧ (i + 1).toNat ≤ lengthOf (feqLength s)
        omega
  · trivial

theorem feqHit_bound {s : State} {i count : Word} (hc : count.toNat ≤ i.toNat) (hi : i.toNat < lengthOf (feqLength s)) :
    FeqBound (feqHit i count s) := by
  have hi1 := toNat_succ_of_lt hi (lengthOf_lt _)
  have hc1 := toNat_succ_of_lt (hc.trans_lt hi) (lengthOf_lt _)
  unfold feqHit
  split
  · trivial
  · split
    · trivial
    · change (count + 1).toNat ≤ (i + 1).toNat ∧ (i + 1).toNat ≤ lengthOf (feqLength s)
      omega

theorem feq16Turn_bound {s : State} (h : FeqBound s) : FeqBound (feq16Turn s) := by
  unfold feq16Turn
  split
  · trivial
  · rename_i i count phase hw
    rw [FeqBound, hw] at h
    cases phase with
    | scan => exact feqScan_bound h.1 h.2
    | hit => exact feqHit_bound h.1 h.2
    | stop => trivial
  · exact h

/-- An engine step of FEQ16 leaves a byte outside its index array alone. -/
theorem feq16Turn_outside {s : State} {a : Word} (h : FeqBound s) (ha : OutsideIndices s a) :
    Memory.byteAt (feq16Turn s).mem a.toNat = Memory.byteAt s.mem a.toNat := by
  have hstep := feq16Turn_step s
  generalize feq16Turn s = t at hstep
  cases hstep with
  | write _ p c hp m w hm _ =>
    rw [FeqBound, hp] at h
    refine memWrite_outside hm a fun j hj => ?_
    simpa using ha c.toNat (h.1.trans_lt h.2) j hj
  | _ => rfl

theorem runTurns_outside (fuel : Nat) {s : State} {a : Word} (h : FeqBound s) (ha : OutsideIndices s a) :
    Memory.byteAt (runTurns feq16Turn fuel s).mem a.toNat = Memory.byteAt s.mem a.toNat := by
  refine runTurns_induction (fun s t => FeqBound s → OutsideIndices s a →
    Memory.byteAt t.mem a.toNat = Memory.byteAt s.mem a.toNat) (fun _ _ _ => rfl) (fun s t _ ih h ha => ?_) fuel s h ha
  obtain ⟨hcfg, hargs, -⟩ := (feq16Turn_step s).kept
  have ha' : OutsideIndices (feq16Turn s) a := by
    simpa only [OutsideIndices, feqLength, feqOut, State.x, hcfg, hargs] using ha
  exact (ih (feq16Turn_bound h) ha').trans (feq16Turn_outside h ha)

/-- Settles O34: the frame of a command, and the bytes its engine steps can change. -/
theorem feq16Frame : Obligations.Feq16Frame := by
  intro s t h
  obtain ⟨hc, ha, hr, hs, hd, ho⟩ := exec_frame h
  refine ⟨hc, ha, hr, hs, hd, ho, fun a hout => ?_⟩
  obtain ⟨-, e⟩ | ⟨-, -, e⟩ | ⟨-, e⟩ | ⟨-, -, -, e⟩ :=
    issue_cases .feq16 (.feq16 0 0 .scan) (2 * lengthOf (feqLength s) + 1) feq16Turn s <;>
    cases e.symm.trans h
  · rfl
  · rfl
  · exact runTurns_outside (s := State.accept .feq16 (.feq16 0 0 .scan) s) _ ⟨le_rfl, Nat.zero_le _⟩ hout
  · rfl

end Sys2Proof.Machine
end

section
/-! What FEQ16 finds (45_vector.md R161, R162): the indices of the document as a function of a list, and the run of a
command, which keeps memory and the count in step with that function. -/

namespace Sys2Proof.Machine

open Sys2Proof.Safety

/-! ### The indices of the matching elements -/

theorem matchesOf_append (n : Half) (xs ys : List Half) :
    matchesOf n (xs ++ ys) = matchesOf n xs ++ (matchesOf n ys).map (xs.length + ·) := by
  rw [matchesOf, List.length_append, List.range_add, List.filter_append, List.filter_map]
  congr 1
  · refine List.filter_congr fun i hi => ?_
    rw [List.getElem?_append_left (List.mem_range.1 hi)]
  · congr 1
    refine List.filter_congr fun i _ => ?_
    simp [List.getElem?_append_right]

theorem matchesOf_concat_self (n : Half) (xs : List Half) :
    matchesOf n (xs ++ [n]) = matchesOf n xs ++ [xs.length] := by
  rw [matchesOf_append]
  simp [matchesOf]

theorem matchesOf_concat_other {n x : Half} (h : x ≠ n) (xs : List Half) :
    matchesOf n (xs ++ [x]) = matchesOf n xs := by
  rw [matchesOf_append]
  simp [matchesOf, h]

theorem matchesOf_length_le (n : Half) (xs : List Half) : (matchesOf n xs).length ≤ xs.length :=
  (List.length_filter_le _ _).trans_eq List.length_range

theorem stopsEarly_iff {n : Half} {max : Word} {xs : List Half} :
    stopsEarly n max xs = true ↔ 0 < lengthOf max ∧ lengthOf max ≤ (matchesOf n xs).length := by
  have hpos : (0#32).slt max ↔ 0 < lengthOf max := ofNat_slt_iff (by decide) max
  rw [stopsEarly, Bool.and_eq_true, hpos, decide_eq_true_eq, lengthOf]

theorem stopsEarly_append {n : Half} {max : Word} {xs : List Half} (ys : List Half) (h : stopsEarly n max xs = true) :
    stopsEarly n max (xs ++ ys) = true := by
  rw [stopsEarly_iff] at h ⊢
  rw [matchesOf_append, List.length_append]
  omega

/-- The first element with an early stop: it matches, and it is the `max_results`-th that does. -/
theorem exists_stop {n : Half} {max : Word} {elems : List Half} (h : stopsEarly n max elems = true) :
    ∃ xs ys, elems = xs ++ [n] ++ ys ∧ stopsEarly n max xs = false ∧ lengthOf max = (matchesOf n xs).length + 1 := by
  induction elems using List.reverseRecOn with
  | nil =>
    have := stopsEarly_iff.1 h
    simp [matchesOf] at this
    omega
  | append_singleton xs x ih =>
    cases hxs : stopsEarly n max xs with
    | true =>
      obtain ⟨as, bs, rfl, hmore⟩ := ih hxs
      exact ⟨as, bs ++ [x], by simp, hmore⟩
    | false =>
      obtain ⟨hpos, hle⟩ := stopsEarly_iff.1 h
      have hlt : (matchesOf n xs).length < lengthOf max := by
        by_contra hge
        exact absurd (stopsEarly_iff.2 ⟨hpos, not_lt.1 hge⟩) (by simp [hxs])
      by_cases hx : x = n
      · subst hx
        rw [matchesOf_concat_self, List.length_append, List.length_singleton] at hle
        exact ⟨xs, [], (List.append_nil _).symm, hxs, by omega⟩
      · rw [matchesOf_concat_other hx] at hle
        omega

theorem indicesOf_stop {n : Half} {max : Word} {xs : List Half} (ys : List Half)
    (hmax : lengthOf max = (matchesOf n xs).length + 1) :
    indicesOf n max (xs ++ [n] ++ ys) = matchesOf n xs ++ [xs.length] ∧
      scannedOf n max (xs ++ [n] ++ ys) = xs.length + 1 := by
  have hstop : stopsEarly n max (xs ++ [n] ++ ys) = true := by
    refine stopsEarly_append ys (stopsEarly_iff.2 ⟨by omega, ?_⟩)
    rw [matchesOf_concat_self, List.length_append, List.length_singleton, hmax]
  rw [lengthOf] at hmax
  rw [indicesOf, scannedOf, if_pos hstop, if_pos hstop, hmax, matchesOf_append, matchesOf_concat_self,
    List.take_left' (by simp)]
  simp

/-! ### Memory under the index writes -/

theorem storeIndices_concat (cfg : Config) (out : Word) (c i : Nat) (found : List Nat) (m : Memory) :
    storeIndices cfg out c (found ++ [i]) m =
      Memory.store (storeIndices cfg out c found m) (elemAddr out (idxSize cfg) (BitVec.ofNat 32 (c + found.length)))
        (inByteOrder cfg (splitBytes (AccessSize.bytes (idxSize cfg)) (BitVec.ofNat 32 i))) := by
  induction found generalizing c m with
  | nil => rfl
  | cons j found ih =>
    rw [List.cons_append, storeIndices, ih, storeIndices, List.length_cons, Nat.add_right_comm, Nat.add_assoc]

theorem byteAt_storeIndices (cfg : Config) (out : Word) (c : Nat) (found : List Nat) (m : Memory) (a : Word)
    (h : ∀ d < found.length, ∀ j < AccessSize.bytes (idxSize cfg),
      a ≠ elemAddr out (idxSize cfg) (BitVec.ofNat 32 (c + d)) + BitVec.ofNat 32 j) :
    Memory.byteAt (storeIndices cfg out c found m) a.toNat = Memory.byteAt m a.toNat := by
  induction found generalizing c m with
  | nil => rfl
  | cons i found ih =>
    rw [storeIndices, ih, Memory.byteAt_store_outside]
    · intro j hj
      rw [inByteOrder_length, splitBytes_length] at hj
      exact h 0 (Nat.succ_pos _) j hj
    · intro d hd j hj
      rw [Nat.add_assoc, Nat.add_comm 1]
      exact h (d + 1) (Nat.succ_lt_succ hd) j hj

/-! ### The run -/

theorem halfArray_succ (s : State) (base : Word) (n : Nat) :
    halfArray s base (n + 1) = halfArray s base n ++ [(elemValue s base .two n).setWidth 16] := by
  simp [halfArray, List.range_succ]

@[simp] theorem halfArray_length (s : State) (base : Word) (n : Nat) : (halfArray s base n).length = n := by
  simp [halfArray]

/-- An element of an array, with what comes before it. -/
theorem halfArray_eq_append {s : State} {base : Word} {n : Nat} {x : Half} {xs ys : List Half}
    (h : halfArray s base n = xs ++ [x] ++ ys) :
    xs.length < n ∧ halfArray s base xs.length = xs ∧ (elemValue s base .two xs.length).setWidth 16 = x := by
  have hn : n = xs.length + (ys.length + 1) := by simpa using congrArg List.length h
  have hfirst : halfArray s base (xs.length + 1) = xs ++ [x] := by
    have htake : (halfArray s base n).take (xs.length + 1) = halfArray s base (xs.length + 1) := by
      simp [halfArray, ← List.map_take, List.take_range, hn]
    rw [← htake, h, List.take_left' (by simp)]
  rw [halfArray_succ] at hfirst
  obtain ⟨hxs, hx⟩ := List.append_inj' hfirst rfl
  exact ⟨by omega, hxs, List.singleton_inj.1 hx⟩

/-- FEQ16 in flight at element `i`, with the indices `found` written. -/
def feqInFlight (s : State) (i : Nat) (found : List Nat) (phase : FeqPhase) : State :=
  { State.accept .feq16 (.feq16 (BitVec.ofNat 32 i) (BitVec.ofNat 32 found.length) phase) s with
    mem := storeIndices s.cfg (feqOut s) 0 found s.mem }

/-- The accesses of FEQ16 to the first `n` elements and to the first `count` index elements are admitted, and the two
do not overlap (20_memory.md R57). -/
structure FeqAdmitted (s : State) (count n : Nat) : Prop where
  read : Admitted s (feqVec s) .two .read n
  write : Admitted s (feqOut s) (idxSize s.cfg) .write count
  disjoint : Safety.Disjoint s.cfg (feqOut s) count (feqVec s) n

theorem FeqAdmitted.mono {s : State} {count count' n n' : Nat} (h : FeqAdmitted s count n) (hc : count' ≤ count)
    (hn : n' ≤ n) : FeqAdmitted s count' n' where
  read i hi := h.read i (hi.trans_le hn)
  write c hi := h.write c (hi.trans_le hc)
  disjoint c hi i hj := h.disjoint c (hi.trans_le hc) i (hj.trans_le hn)

section

variable {s : State} {k : Nat} {found : List Nat}

/-- The index writes have not touched element `k`. -/
theorem memRead_feqInFlight (ha : FeqAdmitted s found.length (k + 1)) (phase : FeqPhase) :
    memRead (feqInFlight s k found phase) (elemAddr (feqVec s) .two (BitVec.ofNat 32 k)) .two =
      some (elemValue s (feqVec s) .two k) := by
  have hload :
      Memory.load (storeIndices s.cfg (feqOut s) 0 found s.mem) (elemAddr (feqVec s) .two (BitVec.ofNat 32 k)) 2 =
        Memory.load s.mem (elemAddr (feqVec s) .two (BitVec.ofNat 32 k)) 2 := by
    refine Memory.load_congr fun l hl => byteAt_storeIndices _ _ _ _ _ _ fun d hd j hj => ?_
    rw [Nat.zero_add]
    exact (ha.disjoint d hd k k.lt_succ_self j hj l hl).symm
  have hread : memRead (feqInFlight s k found phase) (elemAddr (feqVec s) .two (BitVec.ofNat 32 k)) .two =
      some (assemble (inByteOrder s.cfg (Memory.load (storeIndices s.cfg (feqOut s) 0 found s.mem)
        (elemAddr (feqVec s) .two (BitVec.ofNat 32 k)) 2))) := if_pos (ha.read k k.lt_succ_self)
  rw [hread, hload]
  rfl

theorem feq16Turn_hit (hk : k < lengthOf (feqLength s)) (ha : FeqAdmitted s found.length (k + 1))
    (he : (elemValue s (feqVec s) .two k).setWidth 16 = feqN s) :
    feq16Turn (feqInFlight s k found .scan) = feqInFlight s k found .hit :=
  feqScan_hit (s := feqInFlight s k found .scan) ((ofNat_slt_iff (hk.trans (lengthOf_lt _)) _).2 hk)
    (memRead_feqInFlight ha .scan) he

theorem feq16Turn_miss (hk : k < lengthOf (feqLength s)) (ha : FeqAdmitted s found.length (k + 1))
    (he : (elemValue s (feqVec s) .two k).setWidth 16 ≠ feqN s) :
    feq16Turn (feqInFlight s k found .scan) = feqInFlight s (k + 1) found .scan := by
  rw [feqInFlight, feqInFlight, BitVec.ofNat_add]
  exact feqScan_miss (s := feqInFlight s k found .scan) ((ofNat_slt_iff (hk.trans (lengthOf_lt _)) _).2 hk)
    (memRead_feqInFlight ha .scan) he

theorem memWrite_feqInFlight (ha : FeqAdmitted s (found.length + 1) (k + 1)) :
    memWrite (feqInFlight s k found .hit) (elemAddr (feqOut s) (idxSize s.cfg) (BitVec.ofNat 32 found.length))
      (idxSize s.cfg) (BitVec.ofNat 32 k) = some (storeIndices s.cfg (feqOut s) 0 (found ++ [k]) s.mem) := by
  rw [storeIndices_concat, Nat.zero_add]
  exact if_pos (ha.write _ (Nat.lt_succ_self _))

/-- The counter after a match, against `max_results` (R162). -/
theorem ofNat_add_one_eq_iff {c : Nat} (hc : c + 1 < 2 ^ 31) (max : Word) :
    BitVec.ofNat 32 c + 1 = max ↔ lengthOf max = c + 1 := by
  have hsucc : (BitVec.ofNat 32 c + 1).toInt = c + 1 := by
    rw [← Nat.cast_succ, ← toInt_ofNat_of_lt hc, BitVec.ofNat_add]
    rfl
  rw [← BitVec.toInt_inj, hsucc, lengthOf]
  omega

theorem feq16Turn_write_stop (hk : found.length + 1 < 2 ^ 31) (hmax : lengthOf (feqMax s) = found.length + 1)
    (ha : FeqAdmitted s (found.length + 1) (k + 1)) :
    feq16Turn (feqInFlight s k found .hit) = feqInFlight s k (found ++ [k]) .stop := by
  rw [feqInFlight, feqInFlight, List.length_append, BitVec.ofNat_add]
  exact feqHit_stop (s := feqInFlight s k found .hit) (memWrite_feqInFlight ha) ((ofNat_add_one_eq_iff hk _).2 hmax)

theorem feq16Turn_write_go_on (hk : found.length + 1 < 2 ^ 31) (hmax : lengthOf (feqMax s) ≠ found.length + 1)
    (ha : FeqAdmitted s (found.length + 1) (k + 1)) :
    feq16Turn (feqInFlight s k found .hit) = feqInFlight s (k + 1) (found ++ [k]) .scan := by
  rw [feqInFlight, feqInFlight, List.length_append, BitVec.ofNat_add, BitVec.ofNat_add]
  exact feqHit_go_on (s := feqInFlight s k found .hit) (memWrite_feqInFlight ha) (mt (ofNat_add_one_eq_iff hk _).1 hmax)

theorem feq16Turn_end (hk : k = lengthOf (feqLength s)) :
    feq16Turn (feqInFlight s k found .scan) =
      State.complete (BitVec.ofNat 32 found.length) (feqInFlight s k found .scan) :=
  feqScan_end (s := feqInFlight s k found .scan)
    (mt (ofNat_slt_iff (hk.trans_lt (lengthOf_lt _)) _).1 hk.not_lt)

end

/-- The indices of the matches among the first `k` elements. -/
def feqFound (s : State) (k : Nat) : List Nat := matchesOf (feqN s) (halfArray s (feqVec s) k)

/-- FEQ16 does not stop early in the first `k` elements. -/
def FeqGoesOn (s : State) (k : Nat) : Prop := stopsEarly (feqN s) (feqMax s) (halfArray s (feqVec s) k) = false

section

variable {s : State} {k : Nat}

theorem feqFound_length_le : (feqFound s k).length ≤ k := (matchesOf_length_le _ _).trans_eq (halfArray_length ..)

theorem feqFound_succ_hit (he : (elemValue s (feqVec s) .two k).setWidth 16 = feqN s) :
    feqFound s (k + 1) = feqFound s k ++ [k] := by
  rw [feqFound, halfArray_succ, he, matchesOf_concat_self, halfArray_length, feqFound]

theorem feqFound_succ_miss (he : (elemValue s (feqVec s) .two k).setWidth 16 ≠ feqN s) :
    feqFound s (k + 1) = feqFound s k := by
  rw [feqFound, halfArray_succ, matchesOf_concat_other he, feqFound]

theorem FeqGoesOn.pred (h : FeqGoesOn s (k + 1)) : FeqGoesOn s k := by
  rw [FeqGoesOn, ← Bool.not_eq_true] at h ⊢
  exact mt (fun hs => by rw [halfArray_succ]; exact stopsEarly_append _ hs) h

theorem FeqGoesOn.max_ne (h : FeqGoesOn s (k + 1)) (he : (elemValue s (feqVec s) .two k).setWidth 16 = feqN s) :
    lengthOf (feqMax s) ≠ (feqFound s k).length + 1 := fun hmax => by
  have hstop : stopsEarly (feqN s) (feqMax s) (halfArray s (feqVec s) (k + 1)) = true := by
    refine stopsEarly_iff.2 ⟨by omega, ?_⟩
    rw [hmax, ← feqFound, feqFound_succ_hit he, List.length_append, List.length_singleton]
  exact Bool.false_ne_true (h.symm.trans hstop)

/-- The engine steps over the first `k` elements: one for each read and one for each index write. -/
theorem runTurns_feqFound (hk : k ≤ lengthOf (feqLength s)) (hgo : FeqGoesOn s k)
    (ha : FeqAdmitted s (feqFound s k).length k) :
    runTurns feq16Turn (k + (feqFound s k).length) (feqInFlight s 0 [] .scan) =
      feqInFlight s k (feqFound s k) .scan := by
  induction k with
  | zero => rfl
  | succ k ih =>
    have hlen := lengthOf_lt (feqLength s)
    have hle : (feqFound s k).length ≤ k := feqFound_length_le
    by_cases he : (elemValue s (feqVec s) .two k).setWidth 16 = feqN s
    · rw [feqFound_succ_hit he, List.length_append, List.length_singleton] at ha ⊢
      have ha' : FeqAdmitted s (feqFound s k).length (k + 1) := ha.mono (Nat.le_succ _) le_rfl
      have hsteps : k + 1 + ((feqFound s k).length + 1) = k + (feqFound s k).length + 2 := by omega
      rw [hsteps, runTurns_add, ih (by omega) hgo.pred (ha'.mono le_rfl k.le_succ), runTurns_busy 1 rfl,
        feq16Turn_hit hk ha' he, runTurns_busy 0 rfl, feq16Turn_write_go_on (by omega) (hgo.max_ne he) ha]
      rfl
    · rw [feqFound_succ_miss he] at ha ⊢
      rw [Nat.add_right_comm, runTurns_add, ih (by omega) hgo.pred (ha.mono le_rfl k.le_succ), runTurns_busy 0 rfl,
        feq16Turn_miss hk ha he]
      rfl

/-- An undisturbed FEQ16 comes to where the first `k` elements are scanned, and has steps left for two more accesses of
each of the others. -/
theorem exec_feqFound (hr : Ready .feq16 s) (hk : k ≤ lengthOf (feqLength s)) (hgo : FeqGoesOn s k)
    (ha : FeqAdmitted s (feqFound s k).length k) :
    ∃ rest, 2 * (lengthOf (feqLength s) - k) ≤ rest ∧
      exec .feq16 s = .next (runTurns feq16Turn (rest + 1) (feqInFlight s k (feqFound s k) .scan)) := by
  have hle : (feqFound s k).length ≤ k := feqFound_length_le
  refine ⟨2 * lengthOf (feqLength s) - (k + (feqFound s k).length), by omega, ?_⟩
  rw [← runTurns_feqFound hk hgo ha, ← runTurns_add, ← Nat.add_assoc, Nat.add_sub_cancel' (by omega)]
  exact issue_ready hr

end

/-! ### The command -/

/-- Without an early stop the scan ends at the length. -/
theorem exec_feq16_goesOn {s : State} (hr : Ready .feq16 s) (hgo : FeqGoesOn s (lengthOf (feqLength s)))
    (ha : FeqAdmitted s (feqFound s (lengthOf (feqLength s))).length (lengthOf (feqLength s))) :
    exec .feq16 s = .next (State.complete (BitVec.ofNat 32 (feqFound s (lengthOf (feqLength s))).length)
      (feqInFlight s (lengthOf (feqLength s)) (feqFound s (lengthOf (feqLength s))) .scan)) := by
  obtain ⟨rest, -, hexec⟩ := exec_feqFound hr le_rfl hgo ha
  rw [hexec, runTurns_busy _ rfl, feq16Turn_end rfl, runTurns_idle _ rfl]

/-- The match at element `k` that is the `max_results`-th is written, and then the scan ends (R162). -/
theorem exec_feq16_stop {s : State} {k : Nat} (hr : Ready .feq16 s) (hk : k < lengthOf (feqLength s))
    (hgo : FeqGoesOn s k) (he : (elemValue s (feqVec s) .two k).setWidth 16 = feqN s)
    (hmax : lengthOf (feqMax s) = (feqFound s k).length + 1) (ha : FeqAdmitted s ((feqFound s k).length + 1) (k + 1)) :
    exec .feq16 s = .next (State.complete (BitVec.ofNat 32 (feqFound s k ++ [k]).length)
      (feqInFlight s k (feqFound s k ++ [k]) .stop)) := by
  have hlen := lengthOf_lt (feqMax s)
  have ha' : FeqAdmitted s (feqFound s k).length (k + 1) := ha.mono (Nat.le_succ _) le_rfl
  obtain ⟨rest, hrest, hexec⟩ := exec_feqFound hr hk.le hgo (ha'.mono le_rfl k.le_succ)
  obtain ⟨rest, rfl⟩ := Nat.exists_eq_add_of_le' (show 2 ≤ rest by omega)
  rw [hexec, runTurns_busy _ rfl, feq16Turn_hit hk ha' he, runTurns_busy _ rfl,
    feq16Turn_write_stop (by omega) hmax ha, runTurns_busy _ rfl]
  exact congrArg _ (runTurns_idle rest rfl)

/-- Settles O49: the run to the end of the array, or to the match of the early stop. -/
theorem feq16WritesMatchingIndices : Obligations.Feq16WritesMatchingIndices := by
  rintro s _ hr rfl hread hwrite hdisjoint
  have ha : FeqAdmitted s _ _ := ⟨hread, hwrite, hdisjoint⟩
  cases hstop : stopsEarly (feqN s) (feqMax s) (halfArray s (feqVec s) (lengthOf (feqLength s))) with
  | false =>
    rw [indicesOf, scannedOf, hstop, if_neg Bool.false_ne_true, if_neg Bool.false_ne_true, halfArray_length] at ha
    rw [indicesOf, hstop, if_neg Bool.false_ne_true]
    exact ⟨_, exec_feq16_goesOn hr hstop ha, ⟨rfl, rfl, rfl, rfl, rfl, rfl, rfl⟩, ⟨rfl, rfl⟩, rfl⟩
  | true =>
    obtain ⟨xs, ys, helems, hgo, hmax⟩ := exists_stop hstop
    obtain ⟨hk, hxs, he⟩ := halfArray_eq_append helems
    obtain ⟨hindices, hscanned⟩ := indicesOf_stop ys hmax
    have hfound : feqFound s xs.length = matchesOf (feqN s) xs := by rw [feqFound, hxs]
    rw [← hfound] at hmax hindices
    rw [helems, hindices, hscanned, List.length_append] at ha
    rw [helems, hindices]
    exact ⟨_, exec_feq16_stop hr hk (by rwa [FeqGoesOn, hxs]) he hmax ha, ⟨rfl, rfl, rfl, rfl, rfl, rfl, rfl⟩,
      ⟨rfl, rfl⟩, rfl⟩

/-- Settles O50: no elements, no indices. -/
theorem feq16OfNothingReturnsZero : Obligations.Feq16OfNothingReturnsZero := by
  intro s hr hlen
  have hgo : FeqGoesOn s 0 := Bool.eq_false_iff.2 fun h => by
    obtain ⟨hpos, hle⟩ := stopsEarly_iff.1 h
    exact absurd (hpos.trans_le hle) (lt_irrefl 0)
  have hexec := exec_feq16_goesOn hr (by rwa [lengthOf_eq_zero hlen])
    (by rw [lengthOf_eq_zero hlen]; exact ⟨nofun, nofun, nofun⟩)
  rw [lengthOf_eq_zero hlen] at hexec
  exact ⟨_, hexec, ⟨rfl, rfl, rfl, rfl, rfl, rfl, rfl⟩, rfl, rfl, rfl⟩

end Sys2Proof.Machine
end

section
/-! What stops, and what does not (60_exceptions.md R190 to R202): the one fault of a step is the host's division by
zero, and a refused access ends its command with BUS_FAULT, what was written before it left in memory. -/

namespace Sys2Proof.Machine

open Sys2Proof.Safety

/-! ### The fault of a step -/

/-- A command rejects, accepts or runs, and answers a next state each time. -/
theorem exec_next (i : Instr) (s : State) : ∃ t, exec i s = .next t := by
  obtain ⟨-, e⟩ | ⟨-, -, e⟩ | ⟨_, _, -, -, e⟩ | ⟨_, -, -, -, -, e⟩ := exec_cases i s <;> exact ⟨_, e⟩

theorem hostWrite_ne_fault {off : BitVec 6} {n : AccessSize} {v : Word} {s : State} {f : Fault} :
    hostWrite off n v s ≠ .fault f := by
  unfold hostWrite
  split
  · nofun
  · split <;> nofun

theorem hostRead_ne_fault {off : BitVec 6} {n : AccessSize} {s : State} {f : Fault} : hostRead off n s ≠ .fault f := by
  unfold hostRead
  split
  · nofun
  · split <;> nofun

theorem masterStore_ne_fault {a : Word} {bytes : List Byte} {s : State} {f : Fault} :
    masterStore a bytes s ≠ .fault f := by
  unfold masterStore
  split <;> nofun

theorem masterLoad_ne_fault {a : Word} {s : State} {f : Fault} : masterLoad a s ≠ .fault f := by
  unfold masterLoad
  split <;> nofun

theorem falignDivide_fault_iff (ba far : Word) (s : State) (f : Fault) :
    falignDivide ba far s = .fault f ↔ f = .divisionByZero ∧ (lastRead s).1 = 0 := by
  obtain ⟨hg, e⟩ | ⟨hg, _, e⟩ := falignDivide_cases ba far s
  · simp [e, hg]
  · simpa [e] using hg

theorem falignFinish_fault_iff (far num : Word) (s : State) (f : Fault) :
    falignFinish far num s = .fault f ↔ f = .divisionByZero ∧ (lastRead s).1 = 0 := by
  obtain ⟨hg, e⟩ | ⟨hg, -, e⟩ | ⟨hg, -, _, e⟩ := falignFinish_cases far num s
  · simp [e, hg]
  · simpa [e] using hg
  · simpa [e] using hg

/-- The next turn is one of the two of `falign` that divide (41_gcd.md R117). -/
def DividesNext (s : State) : Prop :=
  (∃ ba far rest, s.schedule = .falignDivide ba far :: rest) ∨ ∃ far num rest, s.schedule = .falignFinish far num :: rest

theorem step_fault_iff_of_dividesNext {s : State} (h : DividesNext s) (f : Fault) :
    step s = .fault f ↔ f = .divisionByZero ∧ (lastRead s).1 = 0 := by
  obtain ⟨ba, far, rest, hs⟩ | ⟨far, num, rest, hs⟩ := h
  · rw [step_falignDivide hs, falignDivide_fault_iff, lastRead_schedule]
  · rw [step_falignFinish hs, falignFinish_fault_iff, lastRead_schedule]

theorem dividesNext_of_otherTurn_fault {s : State} {f : Fault} (h : otherTurn s = .fault f) : DividesNext s := by
  cases hs : s.schedule with
  | nil => rw [otherTurn, hs] at h; nomatch h
  | cons turn rest =>
    rw [otherTurn, hs] at h
    cases turn with
    | write => exact (hostWrite_ne_fault h).elim
    | read => exact (hostRead_ne_fault h).elim
    | store => exact (masterStore_ne_fault h).elim
    | load => exact (masterLoad_ne_fault h).elim
    | falignDivide => exact .inl ⟨_, _, _, hs⟩
    | falignFinish => exact .inr ⟨_, _, _, hs⟩
    | _ => nomatch h

theorem dividesNext_of_step_fault {s : State} {f : Fault} (h : step s = .fault f) : DividesNext s := by
  unfold step at h
  split at h
  · rename_i i t _
    obtain ⟨u, hu⟩ := exec_next i t
    nomatch hu.symm.trans h
  · exact dividesNext_of_otherTurn_fault h

/-- Settles O32: a command always answers, and a step faults in the two turns that divide, by their divisor. -/
theorem engineNeverStops : Obligations.EngineNeverStops := by
  refine ⟨exec_next, fun s f => ⟨fun h => ?_, fun ⟨hf, hg, hdiv⟩ => ?_⟩⟩
  · have hdiv := dividesNext_of_step_fault h
    obtain ⟨hf, hg⟩ := (step_fault_iff_of_dividesNext hdiv f).1 h
    exact ⟨hf, hg, hdiv⟩
  · exact (step_fault_iff_of_dividesNext hdiv f).2 ⟨hf, hg⟩

/-! ### The end of a command whose access is refused -/

/-- Two steps from a refused access the operation is over, with BUS_FAULT (R194). -/
theorem runTurns_refuseAccess {turn : State → State} {s : State} (fuel : Nat) (hb : s.status.busy = true)
    (hrefuse : turn s = State.refuseAccess s)
    (hraise : turn (State.refuseAccess s) = State.raise .busFault (State.refuseAccess s)) :
    runTurns turn (fuel + 2) s = State.raise .busFault (State.refuseAccess s) := by
  have hb' : (State.refuseAccess s).status.busy = true := hb
  rw [runTurns_busy _ hb, hrefuse, runTurns_busy _ hb', hraise, runTurns_idle _ rfl]

/-- An operation that has been accepted and whose access is refused ends as R194 says, whatever it has left in memory. -/
theorem busFaulted_of_accepted (i : Instr) (w : Work) (m : Memory) (s : State) :
    BusFaulted s (State.raise .busFault (State.refuseAccess { State.accept i w s with mem := m })) :=
  ⟨rfl, rfl, rfl, rfl, rfl, rfl, rfl, rfl⟩

/-! ### The scans that read only -/

theorem crc32Turn_refuse {s : State} {k : Nat} (cur : Word) (hk : k < (crcLength s).toNat)
    (hno : admits s.cfg (elemAddr (crcData s) .one (BitVec.ofNat 32 k)) .one .read = false) :
    crc32Turn (crcInFlight s k cur) = State.refuseAccess (crcInFlight s k cur) := by
  have hi : BitVec.ofNat 32 k < crcLength (crcInFlight s k cur) := (ofNat_lt_iff hk.le).2 hk
  have hread : memRead (crcInFlight s k cur)
      (elemAddr (crcData (crcInFlight s k cur)) .one (BitVec.ofNat 32 k)) .one = none :=
    if_neg (Bool.eq_false_iff.1 hno)
  have hw : (crcInFlight s k cur).work = .crc32 (crcRegisterAfter s k) cur (BitVec.ofNat 32 k) 0 := rfl
  simp only [crc32Turn, hw, if_pos hi, hread]

/-- CRC32 ends with BUS_FAULT at the first byte whose read is refused. -/
theorem exec_crc32_busFault {s : State} {k : Nat} (hr : Ready .crc32 s) (hk : k < (crcLength s).toNat)
    (ha : Admitted s (crcData s) .one .read k)
    (hno : admits s.cfg (elemAddr (crcData s) .one (BitVec.ofNat 32 k)) .one .read = false) :
    ∃ cur, exec .crc32 s = .next (State.raise .busFault (State.refuseAccess (crcInFlight s k cur))) := by
  obtain ⟨cur, hrun⟩ := runTurns_crcInFlight hk.le ha
  obtain ⟨rest, hrest⟩ : ∃ rest, (crcLength s).toNat + 1 = k + (rest + 2) :=
    ⟨(crcLength s).toNat - 1 - k, by omega⟩
  refine ⟨cur, ?_⟩
  rw [exec_crc32_ready hr, hrest, runTurns_add, hrun, runTurns_refuseAccess rest rfl (crc32Turn_refuse cur hk hno) rfl]

/-- Settles O57: the reads before the refused one, then the two steps that end the scan. -/
theorem refusedReadEndsScan : Obligations.RefusedReadEndsScan := by
  refine ⟨fun s k hr hk ha hno => ?_, fun s k hr hk ha hno => ?_, fun s k hr hk ha hno => ?_⟩
  · obtain ⟨cur, hexec⟩ := exec_crc32_busFault hr hk ha hno
    exact ⟨_, hexec, busFaulted_of_accepted _ _ s.mem s, rfl⟩
  · exact ⟨_, minScan.exec_busFault hr hk ha hno, busFaulted_of_accepted _ _ s.mem s, rfl⟩
  · exact ⟨_, maxScan.exec_busFault hr hk ha hno, busFaulted_of_accepted _ _ s.mem s, rfl⟩

/-! ### FEQ16 -/

theorem feq16Turn_refuse_read {s : State} {k : Nat} (found : List Nat) (hk : k < lengthOf (feqLength s))
    (hno : admits s.cfg (elemAddr (feqVec s) .two (BitVec.ofNat 32 k)) .two .read = false) :
    feq16Turn (feqInFlight s k found .scan) = State.refuseAccess (feqInFlight s k found .scan) :=
  feqScan_refuse (s := feqInFlight s k found .scan) ((ofNat_slt_iff (hk.trans (lengthOf_lt _)) _).2 hk)
    (if_neg (Bool.eq_false_iff.1 hno))

theorem feq16Turn_refuse_write {s : State} (k : Nat) {found : List Nat}
    (hno : admits s.cfg (elemAddr (feqOut s) (idxSize s.cfg) (BitVec.ofNat 32 found.length)) (idxSize s.cfg)
      .write = false) :
    feq16Turn (feqInFlight s k found .hit) = State.refuseAccess (feqInFlight s k found .hit) :=
  feqHit_refuse (s := feqInFlight s k found .hit) (if_neg (Bool.eq_false_iff.1 hno))

/-- Settles O51: the run to element `k`, whose read is refused. -/
theorem feq16ReadFaultKeepsEarlierWrites : Obligations.Feq16ReadFaultKeepsEarlierWrites := by
  rintro s k _ hr hk rfl hgo hread hno hwrite hdisjoint
  obtain ⟨rest, hrest, hexec⟩ := exec_feqFound hr hk.le hgo ⟨hread, hwrite, hdisjoint⟩
  obtain ⟨rest, rfl⟩ := Nat.exists_eq_add_of_le' (show 1 ≤ rest by omega)
  rw [hexec, runTurns_refuseAccess rest rfl (feq16Turn_refuse_read _ hk hno) rfl]
  exact ⟨_, rfl, busFaulted_of_accepted _ _ _ s, rfl⟩

/-- Settles O52: the run to element `k`, its read, and the index write that is refused. -/
theorem feq16WriteFaultStoresNothing : Obligations.Feq16WriteFaultStoresNothing := by
  rintro s k _ hr hk rfl hgo hread he hwrite hno hdisjoint
  have ha : FeqAdmitted s (feqFound s k).length (k + 1) := ⟨hread, hwrite, hdisjoint⟩
  obtain ⟨rest, hrest, hexec⟩ := exec_feqFound hr hk.le hgo (ha.mono le_rfl k.le_succ)
  obtain ⟨rest, rfl⟩ := Nat.exists_eq_add_of_le' (show 2 ≤ rest by omega)
  have hrefuse := feq16Turn_refuse_write (found := feqFound s k) k hno
  rw [hexec, runTurns_busy _ rfl, feq16Turn_hit hk ha he, runTurns_refuseAccess rest rfl hrefuse rfl]
  exact ⟨_, rfl, busFaulted_of_accepted _ _ _ s, rfl⟩

end Sys2Proof.Machine
end

section
/-! The reset input (70_reset_and_hazards.md R220, R221): the turns that assert and release it, and the turns that do
nothing while it is asserted. -/

namespace Sys2Proof.Machine

/-! ### The turns of the platform -/

theorem step_assertReset {s : State} {rest : List Turn} (hs : s.schedule = .assertReset :: rest) :
    step s = .next { State.clear s with schedule := rest, resetAsserted := true } := by
  rw [step_eq_otherTurn (by simp [hs]), otherTurn, hs]

theorem step_releaseReset {s : State} {rest : List Turn} (hs : s.schedule = .releaseReset :: rest) :
    step s = .next { s with schedule := rest, resetAsserted := false } := by
  rw [step_eq_otherTurn (by simp [hs]), otherTurn, hs]

/-! ### While reset is asserted -/

/-- No command is fetched in reset, so also the write of a command's word is left to `otherTurn`. -/
theorem step_eq_otherTurn_of_reset {s : State} (ha : s.resetAsserted = true) : step s = otherTurn s := by
  have hf : fetch s = none := by
    refine Option.eq_none_iff_forall_ne_some.2 fun p hp => ?_
    obtain ⟨_, _, _, _, _, hout, _⟩ := (fetch_eq_some_iff s p.1 p.2).1 hp
    exact absurd (hout.symm.trans ha) Bool.false_ne_true
  simp only [step, hf]

theorem step_write_dropped {s : State} {off : BitVec 6} {n : AccessSize} {v : Word} {rest : List Turn}
    (ha : s.resetAsserted = true) (hs : s.schedule = .write off n v :: rest) :
    step s = .next { s with schedule := rest } := by
  rw [step_eq_otherTurn_of_reset ha]
  simp only [otherTurn, hs, hostWrite, ha, if_true]

theorem step_read_dropped {s : State} {off : BitVec 6} {n : AccessSize} {rest : List Turn}
    (ha : s.resetAsserted = true) (hs : s.schedule = .read off n :: rest) :
    step s = .next { s with schedule := rest } := by
  rw [step_eq_otherTurn_of_reset ha]
  simp only [otherTurn, hs, hostRead, ha, if_true]

theorem engineTurn_of_reset {s : State} (ha : s.resetAsserted = true) : engineTurn s = s := by
  simp [engineTurn, ha]

theorem step_engine_stopped {s : State} {rest : List Turn} (ha : s.resetAsserted = true)
    (hs : s.schedule = .engine :: rest) : step s = .next { s with schedule := rest } := by
  have hstill : engineTurn { s with schedule := rest } = { s with schedule := rest } := engineTurn_of_reset ha
  rw [step_eq_otherTurn_of_reset ha]
  simp only [otherTurn, hs, hstill]

/-- Settles O19: the two turns of the platform, then the three turns that reset leaves without effect. -/
theorem resetAbandonsOperation : Obligations.ResetAbandonsOperation := by
  refine ⟨fun s rest hs => ?_, fun s rest hs => step_releaseReset hs, fun s rest ha => ⟨?_, ?_, ?_⟩⟩
  · exact ⟨_, step_assertReset hs, rfl, rfl, rfl, rfl, rfl, rfl, rfl, rfl⟩
  · exact fun off n v hs => step_write_dropped ha hs
  · exact fun off n hs => step_read_dropped ha hs
  · exact fun hs => step_engine_stopped ha hs

end Sys2Proof.Machine
end
